-- ==== Sys2Proof/Word.lean ====
section
/-!
DEFINITION. The byte and word types, byte strings, and the shapes in which the register file
groups its 32-bit registers (00_scope.md R10, 10_state.md R22 to R24).
-/
namespace Sys2Proof

/-- A byte of a byte string or of the buffer memory. -/
abbrev Byte := BitVec 8

/-- A 32-bit register (10_state.md R22). -/
abbrev Word := BitVec 32

/-- A byte string, indexed from 0, first byte first (00_scope.md R10). -/
abbrev Bytes := List Byte

/-- A group of four registers, such as NONCE0 to NONCE3 (10_state.md R22). -/
structure Quad where
  w0 : Word
  w1 : Word
  w2 : Word
  w3 : Word
deriving DecidableEq, Repr

/-- The eight key staging registers: `lo` is KEY0 to KEY3, `hi` is KEY4 to KEY7 (10_state.md R34). -/
structure KeyStage where
  lo : Quad
  hi : Quad
deriving DecidableEq, Repr

/-- A `_LO`/`_HI` pair of registers (10_state.md R24). -/
structure Pair where
  lo : Word
  hi : Word
deriving DecidableEq, Repr

/-- Four registers of zeros. -/
def Quad.zero : Quad := ⟨0, 0, 0, 0⟩

/-- The eight staging registers at zero. -/
def KeyStage.zero : KeyStage := ⟨Quad.zero, Quad.zero⟩

/-- A register pair of zeros. -/
def Pair.zero : Pair := ⟨0, 0⟩

/-- Which half of a register pair an offset names (10_state.md R24). -/
inductive Half where
  | lo
  | hi
deriving DecidableEq, Repr

end Sys2Proof
end

