-- ==== Sys2Proof/Config.lean ====
section
/-!
DEFINITION. What is fixed for a run and not by a rule: the block cipher, and the free values
that the abort relation leaves open. None of these constants has a body, so nothing can be proved
of their values and every claim holds whatever they are.
-/
namespace Sys2Proof.Config

/-- The block cipher `E` of 00_scope.md R8, as a function of the key bytes and the bytes of the block.
Nothing is assumed of it but that it is total and gives 16 bytes (log 12). -/
opaque cipher : Bytes → Bytes → Vector Byte 16

/-- The free word `index` of a register group whose contents abort number `seed` leaves as any value
(60_exceptions.md R231: DATA after RAWMAC and KEYSTREAM, TAG after MASKMAC; log 8). -/
opaque freeWord : (seed index : Nat) → Word

/-- Which of the values 60_exceptions.md R231 allows byte `index` of the output range holds after
abort number `seed` (log 8). -/
opaque freeChoice : (seed index : Nat) → Fin 3

/-- Whether TAG holds the new tag (true) or its old value (false) after ENCRYPT's abort number `seed`
(60_exceptions.md R231; log 8). -/
opaque freeTag : (seed : Nat) → Bool

end Sys2Proof.Config
end

