-- ==== Sys2Proof/Syntax.lean ====
section
/-!
DEFINITION. What can be given to the engine: the nine commands (one constructor per row of
opcode_table.json), the names of the registers (10_state.md R22), and the actions of the host and
the platform (30_encoding.md R85, 70_reset_and_hazards.md R250, R252).
-/
namespace Sys2Proof

/-- The nine commands of 30_encoding.md R82. A command word carries no operand (R83). -/
inductive Instr where
  /-- 0x1, 45_context.md R190. -/
  | setkey
  /-- 0x2, 45_context.md R193. -/
  | free
  /-- 0x3, 41_formatter.md R110. -/
  | format
  /-- 0x4, 42_cbc_mac.md R134. -/
  | rawmac
  /-- 0x5, 43_counter_mode.md R156. -/
  | keystream
  /-- 0x6, 44_tag_mask_verify.md R176. -/
  | maskmac
  /-- 0x7, 44_tag_mask_verify.md R178. -/
  | verify
  /-- 0x8, 45_context.md R202. -/
  | encrypt
  /-- 0x9, 45_context.md R205. -/
  | decrypt
deriving DecidableEq, Repr

/-- The registers of the table of 10_state.md R22. -/
inductive Reg where
  | cmd
  | status
  | ctrl
  | key (i : Fin 8)
  | nonce (i : Fin 4)
  | alen (h : Half)
  | mlen (h : Half)
  | aadaddr (h : Half)
  | inaddr (h : Half)
  | outaddr (h : Half)
  | ctrv (h : Half)
  | tag (i : Fin 4)
  | data (i : Fin 4)
  | b0 (i : Fin 4)
  | ctr0 (i : Fin 4)
deriving DecidableEq, Repr

/-- One action of the engine's environment. A register access names its width in bits and its offset
in the 4096-byte window; only aligned 32-bit accesses have a meaning (10_state.md R25). -/
inductive HostAction where
  /-- The host writes `value` at `offset` (30_encoding.md R85 `wr`). -/
  | write (bits : Nat) (offset : BitVec 12) (value : Word)
  /-- The host reads at `offset` (30_encoding.md R85 `rd`). -/
  | read (bits : Nat) (offset : BitVec 12)
  /-- The host stores bytes into the buffer memory from `addr` on (30_encoding.md R85 `mem`). -/
  | store (addr : BitVec 64) (bytes : Bytes)
  /-- The platform resets the engine between host accesses (70_reset_and_hazards.md R250). -/
  | reset
  /-- The host writes `cmd` to CMD, and the platform resets the engine before that command is complete:
  the case of 70_reset_and_hazards.md R252 (log 14). -/
  | resetDuring (cmd : Word)
deriving DecidableEq, Repr

end Sys2Proof
end

