-- ==== Sys2Proof/WellFormed.lean ====
section
/-!
DEFINITION. The checks on what is given to the engine: a register access is 32 bits wide and aligned
(10_state.md R25), a host store stays inside the buffer memory (20_memory.md R60), and a command's
opcode is in the opcode map (30_encoding.md R81).
-/
namespace Sys2Proof

/-- The number OPCODE holds for a command (30_encoding.md R82). -/
def Instr.opcode : Instr → Nat
  | .setkey => 0x1
  | .free => 0x2
  | .format => 0x3
  | .rawmac => 0x4
  | .keystream => 0x5
  | .maskmac => 0x6
  | .verify => 0x7
  | .encrypt => 0x8
  | .decrypt => 0x9

/-- An opcode that the map of 30_encoding.md R82 assigns. -/
def opcodeAssigned (n : Nat) : Bool := 0x1 ≤ n && n ≤ 0x9

/-- A command is well formed when its opcode is assigned. Commands have no operand (30_encoding.md R83),
so every command is. -/
def Instr.wellFormed (i : Instr) : Bool := opcodeAssigned i.opcode

/-- A register access is 32 bits wide (10_state.md R25). -/
def accessWidthOK (bits : Nat) : Bool := bits == 32

/-- A register access is at a multiple of 4 (10_state.md R25). -/
def accessAligned (offset : BitVec 12) : Bool := offset.toNat % 4 == 0

/-- A host store touches no address past the top of the buffer memory (20_memory.md R60). -/
def storeInMemory (addr : BitVec 64) (bytes : Bytes) : Bool := addr.toNat + bytes.length ≤ 2 ^ 64

/-- The actions this spec gives a meaning to. -/
def HostAction.wellFormed : HostAction → Bool
  | .write bits offset _ => accessWidthOK bits && accessAligned offset
  | .read bits offset => accessWidthOK bits && accessAligned offset
  | .store addr bytes => storeInMemory addr bytes
  | .reset => true
  | .resetDuring _ => true

end Sys2Proof
end

