-- ==== Sys2Proof/Decode.lean ====
section
/-!
DEFINITION. Decoding of the command word (30_encoding.md R80, R81, R84) and of the register offsets
(10_state.md R22), and the encoder.
-/
namespace Sys2Proof

/-- Why a CMD word is no command (30_encoding.md R84). -/
inductive DecodeReject where
  /-- One of bits 31:4 is 1. -/
  | reservedBits
  /-- OPCODE is 0x0 or 0xA to 0xF. -/
  | reservedOpcode
deriving DecidableEq, Repr

/-- What the decoder answers. -/
inductive Decoded where
  | command (i : Instr)
  | rejected (why : DecodeReject)
deriving DecidableEq, Repr

/-- The command an OPCODE selects (30_encoding.md R82). -/
def opcodeMap : Nat → Option Instr
  | 0x1 => some .setkey
  | 0x2 => some .free
  | 0x3 => some .format
  | 0x4 => some .rawmac
  | 0x5 => some .keystream
  | 0x6 => some .maskmac
  | 0x7 => some .verify
  | 0x8 => some .encrypt
  | 0x9 => some .decrypt
  | _ => none

/-- CMD.OPCODE, bits 3:0 (10_state.md R29). -/
def cmdOpcode (w : Word) : BitVec 4 := w.extractLsb' 0 4

/-- CMD's reserved bits 31:4 (10_state.md R29). -/
def cmdReserved (w : Word) : BitVec 28 := w.extractLsb' 4 28

/-- A CMD write `w` decodes to a command, or is IllegalCommand (30_encoding.md R81). -/
def decode (w : Word) : Decoded :=
  if cmdReserved w ≠ 0 then .rejected .reservedBits
  else
    match opcodeMap (cmdOpcode w).toNat with
    | some i => .command i
    | none => .rejected .reservedOpcode

/-- The command word of a command (30_encoding.md R80, R82): zeros above the opcode. -/
def encode (i : Instr) : Word := (0 : BitVec 28) ++ BitVec.ofNat 4 i.opcode

/-- The instruction the decoder reads from the bits `w` of a table row of `nbits` bits. The engine has
one 32-bit command word; a number that does not fit it is no command word. -/
def decodeTableWord (nbits w : Nat) : Option Instr :=
  if w % 2 ^ nbits < 2 ^ 32 then
    match decode (BitVec.ofNat 32 (w % 2 ^ nbits)) with
    | .command i => some i
    | .rejected _ => none
  else none

/-- The distance of a half from its pair's offset (10_state.md R22). -/
def Half.shift : Half → Nat
  | .lo => 0
  | .hi => 4

/-- The offset of each register in the window (10_state.md R22). -/
def Reg.offset : Reg → Nat
  | .cmd => 0x000
  | .status => 0x004
  | .ctrl => 0x008
  | .key i => 0x010 + 4 * i.val
  | .nonce i => 0x030 + 4 * i.val
  | .alen h => 0x040 + h.shift
  | .mlen h => 0x048 + h.shift
  | .aadaddr h => 0x050 + h.shift
  | .inaddr h => 0x058 + h.shift
  | .outaddr h => 0x060 + h.shift
  | .ctrv h => 0x068 + h.shift
  | .tag i => 0x070 + 4 * i.val
  | .data i => 0x080 + 4 * i.val
  | .b0 i => 0x090 + 4 * i.val
  | .ctr0 i => 0x0A0 + 4 * i.val

/-- The registers of a group of four, in order. -/
def fourOf (r : Fin 4 → Reg) : List Reg := [r 0, r 1, r 2, r 3]

/-- The two halves of a pair, in order. -/
def bothOf (r : Half → Reg) : List Reg := [r .lo, r .hi]

/-- Every register of the table, in the order of its offset (10_state.md R22). -/
def allRegs : List Reg :=
  [.cmd, .status, .ctrl]
    ++ [.key 0, .key 1, .key 2, .key 3, .key 4, .key 5, .key 6, .key 7]
    ++ fourOf .nonce
    ++ bothOf .alen ++ bothOf .mlen ++ bothOf .aadaddr ++ bothOf .inaddr ++ bothOf .outaddr
    ++ bothOf .ctrv
    ++ fourOf .tag ++ fourOf .data ++ fourOf .b0 ++ fourOf .ctr0

/-- The register at an offset of the window, none at a reserved offset (10_state.md R22, R26). -/
def regAt (offset : BitVec 12) : Option Reg :=
  allRegs.find? fun r => r.offset == offset.toNat

/-- The offset of a register as an offset of the 4096-byte window. -/
def Reg.windowOffset (r : Reg) : BitVec 12 := BitVec.ofNat 12 r.offset

end Sys2Proof
end

