-- ==== Sys2Proof/Machine/State.lean ====
section
/-!
DEFINITION. The state of the engine and of its platform (10_state.md, 20_memory.md R60), the reasons a
step can stop, and the state after reset (70_reset_and_hazards.md R250).
-/
namespace Sys2Proof.Machine

/-- The Context state `CTX` (10_state.md R43). -/
inductive Ctx where
  | uninitialized
  | keySet
deriving DecidableEq, Repr

/-- The errors of 60_exceptions.md R222. They end a command and are reported in STATUS; they do not stop
the machine. -/
inductive ErrCode where
  | invalidKeyLength
  | invalidNonceLength
  | invalidTagLength
  | messageTooLong
  | notInitialized
  | authenticationFailed
  | blockCipherFault
  | illegalCommand
  | bufferFault
deriving DecidableEq, Repr

/-- The `kind` of `MemAdmit` (20_memory.md R69). -/
inductive AccessKind where
  | read
  | write
deriving DecidableEq, Repr

/-- A run of addresses: `size` bytes from `base` on. -/
structure Span where
  base : Nat
  size : Nat
deriving DecidableEq, Repr

/-- The platform's open parameters (00_scope.md R9), as plain data that no step changes: the addresses
`MemAdmit` refuses for each kind of access, and `CIPHER_CAN_FAIL` (log 5, 6). -/
structure Platform where
  refusesRead : List Span
  refusesWrite : List Span
  cipherCanFail : Bool
deriving DecidableEq, Repr

/-- The buffer memory (20_memory.md R60): address and byte pairs, the addresses strictly rising and
below 2^64, no byte equal to `Memory.unlisted`. -/
abbrev Memory := List Host.Cell

/-- The state. The first group is the register file of 10_state.md R22, the second the hidden state of
R43 and R44, the third the platform's memory. The last group is the model's own: what the platform and
the host bring to the run (log 1, 3, 5, 7, 8). -/
structure State where
  /-- STATUS (10_state.md R30). -/
  status : Word
  /-- CTRL (10_state.md R32). -/
  ctrl : Word
  /-- KEY0 to KEY7 (10_state.md R34). -/
  key : KeyStage
  /-- NONCE0 to NONCE3 (10_state.md R35). -/
  nonce : Quad
  /-- ALEN_LO, ALEN_HI (10_state.md R36). -/
  alen : Pair
  /-- MLEN_LO, MLEN_HI (10_state.md R36). -/
  mlen : Pair
  /-- AADADDR_LO, AADADDR_HI (10_state.md R37). -/
  aadaddr : Pair
  /-- INADDR_LO, INADDR_HI (10_state.md R37). -/
  inaddr : Pair
  /-- OUTADDR_LO, OUTADDR_HI (10_state.md R37). -/
  outaddr : Pair
  /-- CTRV_LO, CTRV_HI (10_state.md R38). -/
  ctrv : Pair
  /-- TAG0 to TAG3 (10_state.md R39). -/
  tag : Quad
  /-- DATA0 to DATA3 (10_state.md R40). -/
  data : Quad
  /-- B0_0 to B0_3 (10_state.md R41). -/
  b0 : Quad
  /-- CTR0_0 to CTR0_3 (10_state.md R42). -/
  ctr0 : Quad
  /-- `CTX` (10_state.md R43). -/
  ctx : Ctx
  /-- `KEYINT` (10_state.md R44). -/
  keyint : Bytes
  /-- The buffer memory (20_memory.md R60). -/
  mem : Memory
  /-- The platform's open parameters. -/
  platform : Platform
  /-- The failure oracle of `E` (60_exceptions.md R230): the number of calls that succeed before the next
  call that fails, then the same again after that call, and so on; empty when no further call fails. It
  is read only when `platform.cipherCanFail` holds (log 7). -/
  oracle : List Nat
  /-- The number of aborts so far, from which free values are drawn (log 8). -/
  freeSeed : Nat
  /-- What the host and the platform do next, the first action first (log 1). -/
  bus : List HostAction
  /-- The value the last action returned to the host, if it was a register read (log 3). -/
  reply : Option Word
deriving DecidableEq, Repr

/-- A stop that comes from an address the spec says does not exist. -/
inductive Fault where
  /-- Raised by a step on a host store that passes the top of the buffer memory, 2^64 (20_memory.md R60).
  Safe: the run stops, and nothing is stored (log 16). -/
  | hostStorePastTop
deriving DecidableEq, Repr

/-- A stop where the spec says that a model refuses. -/
inductive Refusal where
  /-- Raised by an arm of `exec` that has no meaning yet. Safe. -/
  | notModelled (mnemonic : String)
  /-- Raised by a register access that is not 32 bits wide (10_state.md R25). Safe (log 11). -/
  | registerAccessWidth
  /-- Raised by a register access at an offset that is not a multiple of 4 (10_state.md R25). Safe (log 11). -/
  | registerAccessMisaligned
  /-- Raised by ENCRYPT and DECRYPT when their buffers overlap outside the two cases of 20_memory.md R70.
  Safe (log 10). -/
  | overlappingBuffers
deriving DecidableEq, Repr

/-- The platform that State.reset names: it admits every byte, and its cipher cannot fail
(DESIGN CHOICE, log 5). -/
def Platform.permissive : Platform := { refusesRead := [], refusesWrite := [], cipherCanFail := false }

/-- The state right after reset (70_reset_and_hazards.md R250, 10_state.md R22, R48). The buffer memory,
the platform and the model's own fields are DESIGN CHOICE (log 1, 3, 4, 5, 7, 8). -/
def State.reset : State where
  status := 0x00000000
  ctrl := 0x00000010
  key := KeyStage.zero
  nonce := Quad.zero
  alen := Pair.zero
  mlen := Pair.zero
  aadaddr := Pair.zero
  inaddr := Pair.zero
  outaddr := Pair.zero
  ctrv := Pair.zero
  tag := Quad.zero
  data := Quad.zero
  b0 := Quad.zero
  ctr0 := Quad.zero
  ctx := .uninitialized
  keyint := []
  mem := []
  platform := Platform.permissive
  oracle := []
  freeSeed := 0
  bus := []
  reply := none

end Sys2Proof.Machine
end

