-- ==== Sys2Proof/Machine/Bytes.lean ====
section
/-!
DEFINITION. The byte-string primitives of 00_scope.md R11 and the packing of byte strings in registers
(10_state.md R23, R24).
-/
namespace Sys2Proof.Machine

/-- `zeros(k)` (00_scope.md R11). -/
def zeros (k : Nat) : Bytes := List.replicate k 0

/-- `BE(v, k)`: the `k`-byte big-endian encoding of `v` (00_scope.md R11). It is used only where
`v < 2^(8k)`. -/
def be (v : Nat) : Nat → Bytes
  | 0 => []
  | k + 1 => BitVec.ofNat 8 (v / 2 ^ (8 * k)) :: be v k

/-- The number a big-endian byte string stands for: the reading that `BE` encodes (00_scope.md R11). -/
def beValue (s : Bytes) : Nat := s.foldl (fun acc b => 256 * acc + b.toNat) 0

/-- `A XOR B` (00_scope.md R11). -/
def xorBytes (a b : Bytes) : Bytes := List.zipWith (· ^^^ ·) a b

/-- `MSB_t(S)` (00_scope.md R11). -/
def msb (t : Nat) (s : Bytes) : Bytes := s.take t

/-- `pad16(S)` (00_scope.md R11). -/
def pad16 (s : Bytes) : Bytes := s ++ zeros ((16 - s.length % 16) % 16)

/-- `nblocks(x)` = ceil(x / 16) (00_scope.md R11). -/
def nblocks (x : Nat) : Nat := (x + 15) / 16

/-- Block `j` of a string: its bytes `16j` up to `min(16j + 16, length)` (43_counter_mode.md R152). -/
def blockOf (s : Bytes) (j : Nat) : Bytes := (s.drop (16 * j)).take 16

/-- Byte `j` of a register word: its bits `8j+7 : 8j` (10_state.md R23). -/
def wordByte (w : Word) (j : Nat) : Byte := w.extractLsb' (8 * j) 8

/-- The four bytes of a register word, byte 0 in the least significant bits (10_state.md R23). -/
def wordBytes (w : Word) : Bytes := [wordByte w 0, wordByte w 1, wordByte w 2, wordByte w 3]

/-- The word that holds the bytes `4i` to `4i+3` of a string (10_state.md R23); a byte the string does not
have is 0 (30_encoding.md R86). -/
def wordAt (s : Bytes) (i : Nat) : Word :=
  s.getD (4 * i + 3) 0 ++ s.getD (4 * i + 2) 0 ++ s.getD (4 * i + 1) 0 ++ s.getD (4 * i) 0

end Sys2Proof.Machine

namespace Sys2Proof

/-- Register `i` of a group of four. -/
def Quad.get (q : Quad) (i : Fin 4) : Word :=
  match i with
  | 0 => q.w0
  | 1 => q.w1
  | 2 => q.w2
  | 3 => q.w3

/-- A group of four with register `i` replaced. -/
def Quad.set (q : Quad) (i : Fin 4) (v : Word) : Quad :=
  match i with
  | 0 => { q with w0 := v }
  | 1 => { q with w1 := v }
  | 2 => { q with w2 := v }
  | 3 => { q with w3 := v }

/-- `blk(GROUP)`: the 16 bytes of a group of four (10_state.md R23). -/
def Quad.bytes (q : Quad) : Bytes :=
  Machine.wordBytes q.w0 ++ Machine.wordBytes q.w1 ++ Machine.wordBytes q.w2 ++ Machine.wordBytes q.w3

/-- `blk(GROUP) <- S` (10_state.md R23). -/
def Quad.ofBytes (s : Bytes) : Quad :=
  ⟨Machine.wordAt s 0, Machine.wordAt s 1, Machine.wordAt s 2, Machine.wordAt s 3⟩

/-- KEYi of the staging registers. -/
def KeyStage.get (k : KeyStage) (i : Fin 8) : Word :=
  if h : i.val < 4 then k.lo.get ⟨i.val, h⟩ else k.hi.get ⟨i.val - 4, by omega⟩

/-- The staging registers with KEYi replaced. -/
def KeyStage.set (k : KeyStage) (i : Fin 8) (v : Word) : KeyStage :=
  if h : i.val < 4 then { k with lo := k.lo.set ⟨i.val, h⟩ v }
  else { k with hi := k.hi.set ⟨i.val - 4, by omega⟩ v }

/-- `KEYSTAGE`: the 32 staged key bytes (30_encoding.md R83, 10_state.md R34). -/
def KeyStage.bytes (k : KeyStage) : Bytes := k.lo.bytes ++ k.hi.bytes

/-- One half of a register pair. -/
def Pair.get (p : Pair) : Half → Word
  | .lo => p.lo
  | .hi => p.hi

/-- A register pair with one half replaced (10_state.md R24: no access writes both). -/
def Pair.set (p : Pair) (h : Half) (v : Word) : Pair :=
  match h with
  | .lo => { p with lo := v }
  | .hi => { p with hi := v }

/-- `u64(NAME)` (10_state.md R24). -/
def Pair.u64 (p : Pair) : Nat := p.lo.toNat + 2 ^ 32 * p.hi.toNat

end Sys2Proof
end

