-- ==== Sys2Proof/Machine/Flags.lean ====
section
/-!
DEFINITION. STATUS: its fields, the error codes, and the value a command's end gives it
(10_state.md R30, R31, R47; 60_exceptions.md R222, R225). The engine has no other flags.
-/
namespace Sys2Proof.Machine

/-- The number of an error in STATUS.ERRCODE (60_exceptions.md R222). -/
def ErrCode.code : ErrCode → Nat
  | .invalidKeyLength => 1
  | .invalidNonceLength => 2
  | .invalidTagLength => 3
  | .messageTooLong => 4
  | .notInitialized => 5
  | .authenticationFailed => 6
  | .blockCipherFault => 7
  | .illegalCommand => 8
  | .bufferFault => 9

/-- STATUS.KEYSET, bit 0 (10_state.md R30). -/
def statusKeyset (w : Word) : BitVec 1 := w.extractLsb' 0 1

/-- STATUS.ERR, bit 1 (10_state.md R30). -/
def statusErr (w : Word) : BitVec 1 := w.extractLsb' 1 1

/-- STATUS bits 3:2, reserved (10_state.md R30). -/
def statusReservedLow (w : Word) : BitVec 2 := w.extractLsb' 2 2

/-- STATUS.ERRCODE, bits 7:4 (10_state.md R30). -/
def statusErrcode (w : Word) : BitVec 4 := w.extractLsb' 4 4

/-- STATUS bits 31:8, reserved (10_state.md R30). -/
def statusReservedHigh (w : Word) : BitVec 24 := w.extractLsb' 8 24

/-- STATUS.KEYSET as a number: 1 when `CTX = KeySet` (10_state.md R30). -/
def keysetBit : Ctx → Nat
  | .uninitialized => 0
  | .keySet => 1

/-- The value a command that ends with `e`, or with success, gives STATUS (60_exceptions.md R225). -/
def statusValue (c : Ctx) : Option ErrCode → Word
  | none => BitVec.ofNat 32 (keysetBit c)
  | some e => BitVec.ofNat 32 (keysetBit c + 2 + 16 * e.code)

end Sys2Proof.Machine
end

