-- ==== Sys2Proof/Machine/Operands.lean ====
section
/-!
DEFINITION. The operands of the commands (30_encoding.md R83): every one comes from a register, is
unsigned and has the width of its field.
-/
namespace Sys2Proof.Machine

/-- `t` = CTRL.TAGLEN, bits 4:0. -/
def opT (s : State) : Nat := (s.ctrl.extractLsb' 0 5).toNat

/-- `n` = CTRL.NONCELEN, bits 11:8. -/
def opN (s : State) : Nat := (s.ctrl.extractLsb' 8 4).toNat

/-- `k` = CTRL.KEYLEN, bits 21:16. -/
def opK (s : State) : Nat := (s.ctrl.extractLsb' 16 6).toNat

/-- `L = 15 - n`, used only after `n` has passed its check (41_formatter.md R103). -/
def opL (s : State) : Nat := 15 - opN s

/-- `N = blk(NONCE)[0..n)`. -/
def opNonce (s : State) : Bytes := s.nonce.bytes.take (opN s)

/-- The staged key, `KEYSTAGE[0..k)`. -/
def opKey (s : State) : Bytes := s.key.bytes.take (opK s)

/-- `a = u64(ALEN)`. -/
def opA (s : State) : Nat := s.alen.u64

/-- `m = u64(MLEN)`. -/
def opM (s : State) : Nat := s.mlen.u64

/-- `i = u64(CTRV)`. -/
def opI (s : State) : Nat := s.ctrv.u64

/-- The AAD's address, `u64(AADADDR)`. -/
def aadAddr (s : State) : Nat := s.aadaddr.u64

/-- The input's address, `u64(INADDR)`. -/
def inAddr (s : State) : Nat := s.inaddr.u64

/-- The output's address, `u64(OUTADDR)`. -/
def outAddr (s : State) : Nat := s.outaddr.u64

/-- The supplied tag, `MSB_t(blk(TAG))`. -/
def suppliedTag (s : State) : Bytes := msb (opT s) s.tag.bytes

/-- The block operand, `blk(DATA)`. -/
def dataBlock (s : State) : Bytes := s.data.bytes

end Sys2Proof.Machine
end

