-- ==== Sys2Proof/Machine/Ops.lean ====
section
/-!
DEFINITION. The shared operations: the buffer memory and its port (20_memory.md), the register file
as the host reaches it (10_state.md R22 to R28), the validation checks and their order
(60_exceptions.md R226), the two ways a command ends (R225), the calls of the block cipher and the
aborts (R230, R231), and reset (70_reset_and_hazards.md R250).
-/
namespace Sys2Proof.Machine

/-- The outcome of a step of this machine. -/
abbrev Out := Host.Outcome State Fault Refusal

/-! ### The buffer memory -/

/-- What a byte reads as that nothing has written. The spec lets it be any value
(70_reset_and_hazards.md R251); DESIGN CHOICE, log 4. -/
def Memory.unlisted : Byte := 0

/-- The canonical form from `low` on: addresses rising from `low` and below 2^64, no byte that an unlisted
address reads as. -/
def Memory.wfFrom : Nat → Memory → Bool
  | _, [] => true
  | low, (a, b) :: rest => low ≤ a && a < 2 ^ 64 && b != Memory.unlisted && Memory.wfFrom (a + 1) rest

/-- The canonical form of the buffer memory. -/
def Memory.wf (m : Memory) : Bool := Memory.wfFrom 0 m

/-- The byte at an address (20_memory.md R60). -/
def Memory.read : Memory → Nat → Byte
  | [], _ => Memory.unlisted
  | (a, b) :: rest, x => if a = x then b else Memory.read rest x

/-- The memory with one byte replaced, in canonical form (20_memory.md R60). -/
def Memory.write : Memory → Nat → Byte → Memory
  | [], x, v => if v = Memory.unlisted then [] else [(x, v)]
  | (a, b) :: rest, x, v =>
    if x < a then
      if v = Memory.unlisted then (a, b) :: rest else (x, v) :: (a, b) :: rest
    else if x = a then
      if v = Memory.unlisted then rest else (x, v) :: rest
    else (a, b) :: Memory.write rest x v

/-- `MemRead(addr, n)` (20_memory.md R60). -/
def memRead (m : Memory) (addr n : Nat) : Bytes := (List.range n).map fun j => m.read (addr + j)

/-- `MemWrite(addr, n, S)` with `n` the length of `S` (20_memory.md R60). -/
def memWrite (m : Memory) (addr : Nat) : Bytes → Memory
  | [] => m
  | b :: rest => memWrite (m.write addr b) (addr + 1) rest

/-! ### The port -/

/-- Whether a span holds an address. -/
def Span.holds (sp : Span) (a : Nat) : Bool := sp.base ≤ a && a < sp.base + sp.size

/-- `MemAdmit(addr, kind)` (20_memory.md R69; log 6). -/
def memAdmit (p : Platform) (kind : AccessKind) (addr : Nat) : Bool :=
  match kind with
  | .read => !p.refusesRead.any fun sp => sp.holds addr
  | .write => !p.refusesWrite.any fun sp => sp.holds addr

/-- Every byte of a range is admitted; an empty range is (20_memory.md R63, R69). -/
def rangeAdmitted (p : Platform) (kind : AccessKind) (addr n : Nat) : Bool :=
  (List.range n).all fun j => memAdmit p kind (addr + j)

/-- A buffer range does not pass the top of the address space; one of length 0 is not checked
(20_memory.md R63, R64). -/
def rangeOK (addr len : Nat) : Bool := len == 0 || addr + len ≤ 2 ^ 64

/-- Two ranges share no address. -/
def disjointRanges (addr₁ len₁ addr₂ len₂ : Nat) : Bool :=
  addr₁ + len₁ ≤ addr₂ || addr₂ + len₂ ≤ addr₁

/-- The overlaps that 20_memory.md R70 defines: input and output identical or disjoint, AAD and output
disjoint; a range of length 0 overlaps nothing. -/
def overlapDefined (s : State) : Bool :=
  opM s == 0
    || ((inAddr s == outAddr s || disjointRanges (inAddr s) (opM s) (outAddr s) (opM s))
      && (opA s == 0 || disjointRanges (aadAddr s) (opA s) (outAddr s) (opM s)))

/-- The AAD, `MemRead(u64(AADADDR), a)` (20_memory.md R65). -/
def aadBytes (s : State) : Bytes := memRead s.mem (aadAddr s) (opA s)

/-- The input message, `MemRead(u64(INADDR), m)` (20_memory.md R65). -/
def inBytes (s : State) : Bytes := memRead s.mem (inAddr s) (opM s)

/-- What the output range holds before the command. -/
def outBytes (s : State) : Bytes := memRead s.mem (outAddr s) (opM s)

/-- The port admits every byte of the AAD and of the input. -/
def readsAdmitted (s : State) : Bool :=
  rangeAdmitted s.platform .read (aadAddr s) (opA s) && rangeAdmitted s.platform .read (inAddr s) (opM s)

/-- The port admits every byte of the output. -/
def writesAdmitted (s : State) : Bool := rangeAdmitted s.platform .write (outAddr s) (opM s)

/-! ### The register file -/

/-- The bits of CTRL that are stored (10_state.md R28, R32). -/
def ctrlMask : Word := 0x003F0F1F

/-- What the host reads from a register: a write-only register reads 0 (10_state.md R22, R26). -/
def readReg (r : Reg) (s : State) : Word :=
  match r with
  | .cmd => 0
  | .status => s.status
  | .ctrl => s.ctrl
  | .key _ => 0
  | .nonce i => s.nonce.get i
  | .alen h => s.alen.get h
  | .mlen h => s.mlen.get h
  | .aadaddr h => s.aadaddr.get h
  | .inaddr h => s.inaddr.get h
  | .outaddr h => s.outaddr.get h
  | .ctrv h => s.ctrv.get h
  | .tag i => s.tag.get i
  | .data i => s.data.get i
  | .b0 i => s.b0.get i
  | .ctr0 i => s.ctr0.get i

/-- What the host's write does to a register: it stores the value, but for CTRL's reserved bits, and it
leaves a read-only register as it is (10_state.md R26, R28). CMD is not stored (R29); its write is a
command, which `fetch` hands on. -/
def writeReg (r : Reg) (v : Word) (s : State) : State :=
  match r with
  | .cmd => s
  | .status => s
  | .ctrl => { s with ctrl := v &&& ctrlMask }
  | .key i => { s with key := s.key.set i v }
  | .nonce i => { s with nonce := s.nonce.set i v }
  | .alen h => { s with alen := s.alen.set h v }
  | .mlen h => { s with mlen := s.mlen.set h v }
  | .aadaddr h => { s with aadaddr := s.aadaddr.set h v }
  | .inaddr h => { s with inaddr := s.inaddr.set h v }
  | .outaddr h => { s with outaddr := s.outaddr.set h v }
  | .ctrv h => { s with ctrv := s.ctrv.set h v }
  | .tag i => { s with tag := s.tag.set i v }
  | .data i => { s with data := s.data.set i v }
  | .b0 _ => s
  | .ctr0 _ => s

/-- A read at an offset; a reserved offset reads 0 (10_state.md R26). -/
def readOffset (offset : BitVec 12) (s : State) : Word :=
  match regAt offset with
  | some r => readReg r s
  | none => 0

/-- A write at an offset other than CMD's; a reserved offset ignores it (10_state.md R26). -/
def writeOffset (offset : BitVec 12) (v : Word) (s : State) : State :=
  match regAt offset with
  | some r => writeReg r v s
  | none => s

/-! ### How a command ends, and its checks -/

/-- `complete()` (60_exceptions.md R225). -/
def complete (s : State) : State := { s with status := statusValue s.ctx none }

/-- `raise Err(c)` (60_exceptions.md R225). An error saves nothing but STATUS and transfers no control
(R234). -/
def raise (c : ErrCode) (s : State) : State := { s with status := statusValue s.ctx (some c) }

/-- A check of the validation phase: whether it passes, and the error when it does not. -/
abbrev Check := Bool × ErrCode

/-- The error of the first check that fails (60_exceptions.md R226, R228). -/
def firstError : List Check → Option ErrCode
  | [] => none
  | (ok, c) :: rest => if ok then firstError rest else some c

/-- The validation phase and, when it passes, the execution phase (60_exceptions.md R226, R227). -/
def validated (checks : List Check) (execution : State → Out) (s : State) : Out :=
  match firstError checks with
  | some c => .next (raise c s)
  | none => execution s

/-- `NonceLenOK(n)` (41_formatter.md R101). -/
def nonceLenOK (n : Nat) : Bool := 7 ≤ n && n ≤ 13

/-- `TagLenOK(t)` (41_formatter.md R102). -/
def tagLenOK (t : Nat) : Bool :=
  t == 4 || t == 6 || t == 8 || t == 10 || t == 12 || t == 14 || t == 16

/-- `MsgLenOK(m, L)`, and the same bound for KEYSTREAM's counter value (41_formatter.md R103,
43_counter_mode.md R156). -/
def msgLenOK (m l : Nat) : Bool := m < 2 ^ (8 * l)

/-- `KeyLenOK(k)` (45_context.md R197). -/
def keyLenOK (k : Nat) : Bool := k == 16 || k == 24 || k == 32

/-- Step 2 of 60_exceptions.md R226 (45_context.md R195). -/
def checkKeySet (s : State) : Check := (s.ctx == .keySet, .notInitialized)

/-- Step 4 of 60_exceptions.md R226. -/
def checkNonceLen (s : State) : Check := (nonceLenOK (opN s), .invalidNonceLength)

/-- Step 5 of 60_exceptions.md R226. -/
def checkTagLen (s : State) : Check := (tagLenOK (opT s), .invalidTagLength)

/-- Step 6 of 60_exceptions.md R226, for a message. -/
def checkMsgLen (s : State) : Check := (msgLenOK (opM s) (opL s), .messageTooLong)

/-- Step 6 of 60_exceptions.md R226, for KEYSTREAM's counter value. -/
def checkCounter (s : State) : Check := (msgLenOK (opI s) (opL s), .messageTooLong)

/-- Step 7 of 60_exceptions.md R226, for the AAD. -/
def checkAadRange (s : State) : Check := (rangeOK (aadAddr s) (opA s), .bufferFault)

/-- Step 7 of 60_exceptions.md R226, for the input. -/
def checkInRange (s : State) : Check := (rangeOK (inAddr s) (opM s), .bufferFault)

/-- Step 7 of 60_exceptions.md R226, for the output. -/
def checkOutRange (s : State) : Check := (rangeOK (outAddr s) (opM s), .bufferFault)

/-- The validation phase of ENCRYPT, which DECRYPT's is identical to (45_context.md R202, R205). -/
def messageChecks (s : State) : List Check :=
  [checkKeySet s, checkNonceLen s, checkTagLen s, checkMsgLen s,
    checkAadRange s, checkInRange s, checkOutRange s]

/-! ### The block cipher and the aborts -/

/-- `E(K, X)` (00_scope.md R8). -/
def cipherE (key block : Bytes) : Bytes := (Config.cipher key block).toList

/-- The oracle after `calls` calls of `E`, and whether one of them failed. A call that fails is the last
call the command makes (60_exceptions.md R230; log 7). -/
def consultOracle (calls : Nat) : List Nat → Bool × List Nat
  | [] => (false, [])
  | good :: rest => if good < calls then (true, rest) else (false, (good - calls) :: rest)

/-- Whether one of the next `calls` calls of `E` reports failure (60_exceptions.md R230). -/
def cipherFails (calls : Nat) (s : State) : Bool :=
  s.platform.cipherCanFail && (consultOracle calls s.oracle).1

/-- The state after `calls` calls of `E`: the oracle moves on when the cipher can fail. -/
def afterCalls (calls : Nat) (s : State) : State :=
  if s.platform.cipherCanFail then { s with oracle := (consultOracle calls s.oracle).2 } else s

/-- `calls` calls of `E`, then `onFailure` if one reports failure and `onSuccess` if none does
(60_exceptions.md R230). -/
def withCalls (calls : Nat) (onFailure onSuccess : State → Out) (s : State) : Out :=
  if cipherFails calls s then onFailure (afterCalls calls s) else onSuccess (afterCalls calls s)

/-- The end of an abort (60_exceptions.md R231): STATUS holds the abort's code, and the next abort draws
fresh free values. The caller gives the destinations their free contents. -/
def abort (c : ErrCode) (s : State) : State := raise c { s with freeSeed := s.freeSeed + 1 }

/-- A register group that holds any value (60_exceptions.md R231; log 8). -/
def freeQuad (seed : Nat) : Quad :=
  ⟨Config.freeWord seed 0, Config.freeWord seed 1, Config.freeWord seed 2, Config.freeWord seed 3⟩

/-- A byte of ENCRYPT's output range after an abort: its old value or the ciphertext's
(60_exceptions.md R231). -/
def abortByteEncrypt (pick : Fin 3) (old new : Byte) : Byte := if pick = 0 then old else new

/-- A byte of DECRYPT's output range after an abort: its old value, 0 or, only when the comparison was
made and found the tags equal, the plaintext's (60_exceptions.md R231). -/
def abortByteDecrypt (matched : Bool) (pick : Fin 3) (old plain : Byte) : Byte :=
  if pick = 0 then old else if pick = 1 then 0 else if matched then plain else 0

/-- The output range after an abort, byte by byte, from its old contents and the finished output. -/
def abortBytes (choose : Fin 3 → Byte → Byte → Byte) (seed : Nat) (old new : Bytes) : Bytes :=
  (List.range old.length).map fun j => choose (Config.freeChoice seed j) (old.getD j 0) (new.getD j 0)

/-! ### The key staging and reset -/

/-- KEY0 to KEY7 cleared (45_context.md R190, R193). -/
def clearStaging (s : State) : State := { s with key := KeyStage.zero }

/-- Reset (70_reset_and_hazards.md R250): every register, `CTX` and `KEYINT` take their reset value. The
buffer memory (R251), the platform and what the host does next are not the engine's and stay (log 15). -/
def platformReset (s : State) : State :=
  { State.reset with
    mem := s.mem
    platform := s.platform
    oracle := s.oracle
    freeSeed := s.freeSeed
    bus := s.bus }

end Sys2Proof.Machine
end

