-- ==== Sys2Proof/Machine/Formatter.lean ====
section
/-!
DEFINITION. CCM_formatter (41_formatter.md): B0, the counter blocks, the AAD header, the padding, and
the FORMAT command.
-/
namespace Sys2Proof.Machine

/-- `Adata` (00_scope.md R13). -/
def adata (a : Nat) : Nat := if a > 0 then 1 else 0

/-- `FlagsB0(n, t, a)` (41_formatter.md R104). -/
def flagsB0 (n t a : Nat) : Nat := 64 * adata a + 8 * ((t - 2) / 2) + (15 - n - 1)

/-- `B0(N, t, a, m)` (41_formatter.md R105). -/
def blockB0 (nonce : Bytes) (t a m : Nat) : Bytes :=
  be (flagsB0 nonce.length t a) 1 ++ nonce ++ be m (15 - nonce.length)

/-- `Ctr(N, i)` (41_formatter.md R106; the flags byte is `L - 1` alone, 90_conflicts.md C2). -/
def blockCtr (nonce : Bytes) (i : Nat) : Bytes :=
  be (15 - nonce.length - 1) 1 ++ nonce ++ be i (15 - nonce.length)

/-- `AadHeader(a)` (41_formatter.md R107). -/
def aadHeader (a : Nat) : Bytes :=
  if a = 0 then []
  else if a < 2 ^ 16 - 2 ^ 8 then be a 2
  else if a < 2 ^ 32 then [0xFF, 0xFE] ++ be a 4
  else [0xFF, 0xFF] ++ be a 8

/-- `FmtAAD(A)` (41_formatter.md R108). -/
def fmtAad (aad : Bytes) : Bytes :=
  if aad.length = 0 then [] else pad16 (aadHeader aad.length ++ aad)

/-- `FmtMsg(P)` (41_formatter.md R109). -/
def fmtMsg (p : Bytes) : Bytes := pad16 p

/-- FORMAT (41_formatter.md R110, R111). -/
def execFormat (s : State) : Out :=
  validated [checkKeySet s, checkNonceLen s, checkTagLen s, checkMsgLen s]
    (fun s => .next (complete
      { s with
        b0 := Quad.ofBytes (blockB0 (opNonce s) (opT s) (opA s) (opM s))
        ctr0 := Quad.ofBytes (blockCtr (opNonce s) 0) })) s

end Sys2Proof.Machine
end

