-- ==== Sys2Proof/Machine/CbcMac.lean ====
section
/-!
DEFINITION. CBC_MAC_engine (42_cbc_mac.md): the CBC-MAC over the formatted blocks, and the RAWMAC
command.
-/
namespace Sys2Proof.Machine

/-- `CbcMac(K, X)` over the blocks `X_0 .. X_r` of `X` (42_cbc_mac.md R131). -/
def cbcMac (key x : Bytes) : Bytes :=
  (List.range (x.length / 16 - 1)).foldl
    (fun y j => cipherE key (xorBytes y (blockOf x (j + 1))))
    (cipherE key (blockOf x 0))

/-- `RawMac(K, N, t, A, P)` (42_cbc_mac.md R132). -/
def rawMac (key nonce : Bytes) (t : Nat) (aad p : Bytes) : Bytes :=
  cbcMac key (blockB0 nonce t aad.length p.length ++ fmtAad aad ++ fmtMsg p)

/-- The number of blocks of the CBC-MAC input for lengths `a` and `m`: `M` of 70_reset_and_hazards.md R264
(41_formatter.md R113). -/
def macBlocks (a m : Nat) : Nat :=
  1 + (if a = 0 then 0 else nblocks ((aadHeader a).length + a)) + nblocks m

/-- RAWMAC (42_cbc_mac.md R134). -/
def execRawmac (s : State) : Out :=
  validated
    [checkKeySet s, checkNonceLen s, checkTagLen s, checkMsgLen s, checkAadRange s, checkInRange s]
    (fun s =>
      if readsAdmitted s then
        withCalls (macBlocks (opA s) (opM s))
          (fun s => .next (abort .blockCipherFault { s with data := freeQuad s.freeSeed }))
          (fun s => .next (complete
            { s with
              data := Quad.ofBytes
                (rawMac s.keyint (opNonce s) (opT s) (aadBytes s) (inBytes s)) })) s
      else .next (abort .bufferFault { s with data := freeQuad s.freeSeed })) s

end Sys2Proof.Machine
end

