-- ==== Sys2Proof/Machine/CounterMode.lean ====
section
/-!
DEFINITION. counter_mode_keystream (43_counter_mode.md): the keystream, the CTR transform, and the
KEYSTREAM command.
-/
namespace Sys2Proof.Machine

/-- `Keystream(K, N, i)` (43_counter_mode.md R151). -/
def keystream (key nonce : Bytes) (i : Nat) : Bytes := cipherE key (blockCtr nonce i)

/-- `CtrCrypt(K, N, X)`: block `j` is masked with keystream block `j + 1`, truncated to the bytes that
remain (43_counter_mode.md R152 to R154). -/
def ctrCrypt (key nonce x : Bytes) : Bytes :=
  (List.range (nblocks x.length)).flatMap fun j =>
    xorBytes (blockOf x j) (msb (blockOf x j).length (keystream key nonce (j + 1)))

/-- KEYSTREAM (43_counter_mode.md R156). It does not read CTRL.TAGLEN. -/
def execKeystream (s : State) : Out :=
  validated [checkKeySet s, checkNonceLen s, checkCounter s]
    (withCalls 1
      (fun s => .next (abort .blockCipherFault { s with data := freeQuad s.freeSeed }))
      (fun s => .next (complete
        { s with data := Quad.ofBytes (keystream s.keyint (opNonce s) (opI s)) }))) s

end Sys2Proof.Machine
end

