-- ==== Sys2Proof/Machine/TagMask.lean ====
section
/-!
DEFINITION. CCM_tag_mask_and_verify (44_tag_mask_verify.md): the tag, the full-length comparison, and
the MASKMAC and VERIFY commands.
-/
namespace Sys2Proof.Machine

/-- `MaskMac(K, N, R, t)` (44_tag_mask_verify.md R171). -/
def maskMac (key nonce r : Bytes) (t : Nat) : Bytes := msb t (xorBytes r (keystream key nonce 0))

/-- A tag as the 16 bytes of TAG: `T || zeros(16 - t)` (44_tag_mask_verify.md R173). -/
def tagRegister (tag : Bytes) (t : Nat) : Quad := Quad.ofBytes (tag ++ zeros (16 - t))

/-- `CtEqual(X, Y, t)`: every one of the `t` bytes goes into the accumulator, and only then is it compared
with 0 (44_tag_mask_verify.md R174). -/
def ctEqual (x y : Bytes) (t : Nat) : Bool :=
  ((List.range t).foldl (fun (acc : Byte) i => acc ||| (x.getD i 0 ^^^ y.getD i 0)) 0) == 0

/-- MASKMAC (44_tag_mask_verify.md R176). -/
def execMaskmac (s : State) : Out :=
  validated [checkKeySet s, checkNonceLen s, checkTagLen s]
    (withCalls 1
      (fun s => .next (abort .blockCipherFault { s with tag := freeQuad s.freeSeed }))
      (fun s => .next (complete
        { s with tag := tagRegister (maskMac s.keyint (opNonce s) (dataBlock s) (opT s)) (opT s) }))) s

/-- VERIFY (44_tag_mask_verify.md R178). -/
def execVerify (s : State) : Out :=
  validated [checkKeySet s, checkTagLen s]
    (fun s =>
      if ctEqual s.data.bytes s.tag.bytes (opT s) then .next (complete s)
      else .next (raise .authenticationFailed s)) s

end Sys2Proof.Machine
end

