-- ==== Sys2Proof/Machine/Context.lean ====
section
/-!
DEFINITION. The CCM Context (45_context.md): the whole-message functions, the commands SETKEY, FREE,
ENCRYPT and DECRYPT, and a reset that arrives during a command (70_reset_and_hazards.md R252).
-/
namespace Sys2Proof.Machine

/-! ### The key -/

/-- SETKEY (45_context.md R190 to R192). The staging is cleared on every outcome. -/
def execSetkey (s : State) : Out :=
  validated [(keyLenOK (opK s), .invalidKeyLength)]
    (fun cleared => .next (complete { cleared with keyint := opKey s, ctx := .keySet }))
    (clearStaging s)

/-- FREE (45_context.md R193, R194). The held key is overwritten with zeros before it is emptied; both
happen inside the command, so only the empty key is ever seen. -/
def execFree (s : State) : Out :=
  let zeroized := { clearStaging s with keyint := zeros s.keyint.length }
  .next (complete { zeroized with keyint := [], ctx := .uninitialized })

/-! ### The whole-message functions -/

/-- The ciphertext half of `CcmEncrypt(K, N, A, P, t)` (45_context.md R200). -/
def ccmCiphertext (key nonce p : Bytes) : Bytes := ctrCrypt key nonce p

/-- The tag half of `CcmEncrypt(K, N, A, P, t)`, which is also the expected tag of `CcmDecrypt`
(45_context.md R200, R201). -/
def ccmTag (key nonce aad p : Bytes) (t : Nat) : Bytes :=
  maskMac key nonce (rawMac key nonce t aad p) t

/-- `CcmEncrypt(K, N, A, P, t)` (45_context.md R200). -/
def ccmEncrypt (key nonce aad p : Bytes) (t : Nat) : Bytes × Bytes :=
  (ccmCiphertext key nonce p, ccmTag key nonce aad p t)

/-- `CcmDecrypt(K, N, A, C, Tsup, t)` (45_context.md R201); `none` is FAIL. -/
def ccmDecrypt (key nonce aad c supplied : Bytes) (t : Nat) : Option Bytes :=
  let p := ctrCrypt key nonce c
  if ctEqual (ccmTag key nonce aad p t) supplied t then some p else none

/-! ### ENCRYPT -/

/-- `CcmEncrypt` of the operands ENCRYPT reads (45_context.md R202). -/
def encrypted (s : State) : Bytes × Bytes :=
  ccmEncrypt s.keyint (opNonce s) (aadBytes s) (inBytes s) (opT s)

/-- The calls of `E` of the MAC, the tag mask and one masking pass (70_reset_and_hazards.md R264). -/
def passCalls (s : State) : Nat := macBlocks (opA s) (opM s) + 1 + nblocks (opM s)

/-- ENCRYPT's output range after an abort (60_exceptions.md R231). -/
def abortOutEncrypt (s : State) : Bytes :=
  abortBytes abortByteEncrypt s.freeSeed (outBytes s) (encrypted s).1

/-- ENCRYPT's abort (60_exceptions.md R231). -/
def abortEncrypt (c : ErrCode) (s : State) : State :=
  abort c
    { s with
      mem := memWrite s.mem (outAddr s) (abortOutEncrypt s)
      tag := if Config.freeTag s.freeSeed then tagRegister (encrypted s).2 (opT s) else s.tag }

/-- ENCRYPT (45_context.md R202 to R204). -/
def execEncrypt (s : State) : Out :=
  validated (messageChecks s)
    (fun s =>
      if !overlapDefined s then .refused .overlappingBuffers
      else if !readsAdmitted s then .next (abortEncrypt .bufferFault s)
      else
        withCalls (passCalls s)
          (fun s => .next (abortEncrypt .blockCipherFault s))
          (fun s =>
            if !writesAdmitted s then .next (abortEncrypt .bufferFault s)
            else
              .next (complete
                { s with
                  mem := memWrite s.mem (outAddr s) (encrypted s).1
                  tag := tagRegister (encrypted s).2 (opT s) })) s) s

/-! ### DECRYPT -/

/-- The recovered plaintext `P'` (45_context.md R205). -/
def recovered (s : State) : Bytes := ctrCrypt s.keyint (opNonce s) (inBytes s)

/-- The expected tag `T'`, over the recovered plaintext (45_context.md R205). -/
def expectedTag (s : State) : Bytes :=
  ccmTag s.keyint (opNonce s) (aadBytes s) (recovered s) (opT s)

/-- The comparison of 45_context.md R205. -/
def tagsMatch (s : State) : Bool := ctEqual (expectedTag s) (suppliedTag s) (opT s)

/-- DECRYPT's output range after an abort; `matched` says whether the comparison was made and found the
tags equal (60_exceptions.md R231). -/
def abortOutDecrypt (matched : Bool) (s : State) : Bytes :=
  abortBytes (abortByteDecrypt matched) s.freeSeed (outBytes s) (recovered s)

/-- DECRYPT's abort (60_exceptions.md R231, R233). -/
def abortDecrypt (matched : Bool) (c : ErrCode) (s : State) : State :=
  abort c { s with mem := memWrite s.mem (outAddr s) (abortOutDecrypt matched s) }

/-- The second pass on a match: the keystream is recomputed, then the plaintext is written
(45_context.md R205, R206; log 13). -/
def releasePlaintext (s : State) : Out :=
  withCalls (nblocks (opM s))
    (fun s => .next (abortDecrypt true .blockCipherFault s))
    (fun s =>
      if !writesAdmitted s then .next (abortDecrypt true .bufferFault s)
      else .next (complete { s with mem := memWrite s.mem (outAddr s) (recovered s) })) s

/-- The end on a mismatch: the output range is zeroed (45_context.md R205, R207; 60_exceptions.md R233). -/
def zeroOutput (s : State) : Out :=
  if !writesAdmitted s then .next (abortDecrypt false .bufferFault s)
  else
    .next (raise .authenticationFailed
      { s with mem := memWrite s.mem (outAddr s) (zeros (opM s)) })

/-- DECRYPT (45_context.md R205 to R208): nothing is written before the comparison is complete. -/
def execDecrypt (s : State) : Out :=
  validated (messageChecks s)
    (fun s =>
      if !overlapDefined s then .refused .overlappingBuffers
      else if !readsAdmitted s then .next (abortDecrypt false .bufferFault s)
      else
        withCalls (passCalls s)
          (fun s => .next (abortDecrypt false .blockCipherFault s))
          (fun s => if tagsMatch s then releasePlaintext s else zeroOutput s) s) s

/-! ### Reset during a command -/

/-- The commands that write the buffer memory (20_memory.md R65). -/
def writesBuffer : Instr → Bool
  | .setkey => false
  | .free => false
  | .format => false
  | .rawmac => false
  | .keystream => false
  | .maskmac => false
  | .verify => false
  | .encrypt => true
  | .decrypt => true

/-- DECRYPT gets as far as its comparison: every byte of the AAD and of the ciphertext can be read, and no
call of `E` of the first pass fails (45_context.md R205, R206; 60_exceptions.md R233). -/
def comparisonMade (s : State) : Bool := readsAdmitted s && !cipherFails (passCalls s) s

/-- The output range of a message command that a reset cuts short: the abort relation, with the plaintext
allowed only where DECRYPT makes its comparison and finds the tags equal (60_exceptions.md R231,
70_reset_and_hazards.md R252). -/
def cutOutput (i : Instr) (s : State) : Bytes :=
  match i with
  | .encrypt => abortOutEncrypt s
  | .decrypt => abortOutDecrypt (comparisonMade s && tagsMatch s) s
  | .setkey => []
  | .free => []
  | .format => []
  | .rawmac => []
  | .keystream => []
  | .maskmac => []
  | .verify => []

/-- Reset during the command of the CMD word `w` (70_reset_and_hazards.md R252): reset, with the output
range of a command that had passed its validation in the abort relation (log 14). -/
def resetDuringCommand (w : Word) (s : State) : Out :=
  match decode w with
  | .rejected _ => .next (platformReset s)
  | .command i =>
    if writesBuffer i && (firstError (messageChecks s)).isNone then
      if overlapDefined s then
        .next (platformReset
          { s with
            mem := memWrite s.mem (outAddr s) (cutOutput i s)
            freeSeed := s.freeSeed + 1 })
      else .refused .overlappingBuffers
    else .next (platformReset s)

end Sys2Proof.Machine
end

