-- ==== Sys2Proof/Machine/Bus.lean ====
section
/-!
DEFINITION. What a step takes from the host and the platform: the next action of State.bus
(00_scope.md R16, R17; 10_state.md R25 to R28; 20_memory.md R60; 70_reset_and_hazards.md R250).
-/
namespace Sys2Proof.Machine

/-- What the next action asks of the engine: to run a command, or nothing more than what is done. -/
inductive Fetched where
  | run (i : Instr) (s : State)
  | done (o : Out)

/-- Why a register access has no meaning, if it has none (10_state.md R25). -/
def accessRefusal (bits : Nat) (offset : BitVec 12) : Option Refusal :=
  if !accessWidthOK bits then some .registerAccessWidth
  else if !accessAligned offset then some .registerAccessMisaligned
  else none

/-- A write to CMD: the command to run, or IllegalCommand, which changes STATUS alone
(30_encoding.md R81, R84). -/
def commandWrite (w : Word) (s : State) : Fetched :=
  match decode w with
  | .command i => .run i s
  | .rejected _ => .done (.next (raise .illegalCommand s))

/-- A register write (10_state.md R25 to R28). -/
def hostWrite (bits : Nat) (offset : BitVec 12) (v : Word) (s : State) : Fetched :=
  match accessRefusal bits offset with
  | some r => .done (.refused r)
  | none =>
    if regAt offset = some .cmd then commandWrite v s else .done (.next (writeOffset offset v s))

/-- A register read returns a value and changes nothing (00_scope.md R16; log 3). -/
def hostRead (bits : Nat) (offset : BitVec 12) (s : State) : Out :=
  match accessRefusal bits offset with
  | some r => .refused r
  | none => .next { s with reply := some (readOffset offset s) }

/-- A host store into the buffer memory (30_encoding.md R85, 20_memory.md R60). -/
def hostStore (addr : BitVec 64) (bytes : Bytes) (s : State) : Out :=
  if storeInMemory addr bytes then .next { s with mem := memWrite s.mem addr.toNat bytes }
  else .fault .hostStorePastTop

/-- One action of the environment. -/
def perform (act : HostAction) (s : State) : Fetched :=
  match act with
  | .write bits offset v => hostWrite bits offset v s
  | .read bits offset => .done (hostRead bits offset s)
  | .store addr bytes => .done (hostStore addr bytes s)
  | .reset => .done (.next (platformReset s))
  | .resetDuring w => .done (resetDuringCommand w s)

/-- The next action is taken from the bus, and the last read's value is gone. With no action the engine
stays as it is: it does nothing by itself (10_state.md R21; log 2). -/
def fetch (s : State) : Fetched :=
  match s.bus with
  | [] => .done (.next s)
  | act :: rest => perform act { s with bus := rest, reply := none }

end Sys2Proof.Machine
end

