-- ==== Sys2Proof/Machine/Dispatch.lean ====
section
/-!
DEFINITION. One arm per command: the meaning each has in the family's file.
-/
namespace Sys2Proof.Machine

def exec (i : Instr) (s : State) : Host.Outcome State Fault Refusal :=
  match i with
  | .setkey => Sys2Proof.Machine.execSetkey s
  | .free => Sys2Proof.Machine.execFree s
  | .format => Sys2Proof.Machine.execFormat s
  | .rawmac => Sys2Proof.Machine.execRawmac s
  | .keystream => Sys2Proof.Machine.execKeystream s
  | .maskmac => Sys2Proof.Machine.execMaskmac s
  | .verify => Sys2Proof.Machine.execVerify s
  | .encrypt => Sys2Proof.Machine.execEncrypt s
  | .decrypt => Sys2Proof.Machine.execDecrypt s

end Sys2Proof.Machine
end

