-- ==== Sys2Proof/Machine/Step.lean ====
section
/-!
DEFINITION. One step: one action of the host or the platform (00_scope.md R16), a CMD write being one
whole command (10_state.md R27).
-/
namespace Sys2Proof.Machine

/-- One step of the machine. -/
def step (s : State) : Host.Outcome State Fault Refusal :=
  match fetch s with
  | .run i s' => exec i s'
  | .done o => o

/-- The state whose next action is the host's write of the command word `w` to CMD (log 1). -/
def State.withFetchWord (s : State) (nbits w : Nat) : State :=
  { s with bus := .write 32 (BitVec.ofNat 12 0x000) (BitVec.ofNat 32 (w % 2 ^ nbits)) :: s.bus }

end Sys2Proof.Machine
end

