-- ==== Sys2Proof/Machine/HostSyntax.lean ====
section
/-!
DEFINITION. The host syntax of 30_encoding.md R85 and its pseudo-instructions (R86), as the actions
they expand to.
-/
namespace Sys2Proof.Machine

/-- `wr NAME, v` (30_encoding.md R85). -/
def wr (r : Reg) (v : Word) : HostAction := .write 32 r.windowOffset v

/-- `rd NAME` (30_encoding.md R85). -/
def rd (r : Reg) : HostAction := .read 32 r.windowOffset

/-- `SETKEY` to `DECRYPT`: `wr CMD, w` (30_encoding.md R86). -/
def command (i : Instr) : HostAction := wr .cmd (encode i)

/-- `wr64 NAME, v` (30_encoding.md R86). -/
def wr64 (name : Half → Reg) (v : Nat) : List HostAction :=
  [wr (name .lo) (BitVec.ofNat 32 (v % 2 ^ 32)), wr (name .hi) (BitVec.ofNat 32 (v / 2 ^ 32))]

/-- `wrblk GROUP, b0 b1 ...` for a group of four registers (30_encoding.md R86). -/
def wrblk (group : Fin 4 → Reg) (s : Bytes) : List HostAction :=
  [wr (group 0) (wordAt s 0), wr (group 1) (wordAt s 1), wr (group 2) (wordAt s 2),
    wr (group 3) (wordAt s 3)]

/-- `wrblk KEY, b0 b1 ...` (30_encoding.md R86). -/
def wrblkKey (s : Bytes) : List HostAction :=
  [wr (.key 0) (wordAt s 0), wr (.key 1) (wordAt s 1), wr (.key 2) (wordAt s 2),
    wr (.key 3) (wordAt s 3), wr (.key 4) (wordAt s 4), wr (.key 5) (wordAt s 5),
    wr (.key 6) (wordAt s 6), wr (.key 7) (wordAt s 7)]

/-- `rdblk GROUP` (30_encoding.md R86). -/
def rdblk (group : Fin 4 → Reg) : List HostAction :=
  [rd (group 0), rd (group 1), rd (group 2), rd (group 3)]

/-- `ctrl t, n, k` (30_encoding.md R86). -/
def ctrl (t n k : Nat) : HostAction := wr .ctrl (BitVec.ofNat 32 (t + 2 ^ 8 * n + 2 ^ 16 * k))

end Sys2Proof.Machine
end

