-- ==== Sys2Proof/Safety.lean ====
section
/-!
DEFINITION. The terms in which claims about the engine are stated: the invariant of the state, when a
command can run, and the check order as the table of 60_exceptions.md R226.
-/
namespace Sys2Proof.Machine

/-! ### The invariant -/

/-- STATUS as 10_state.md R30 and R31 and 60_exceptions.md R222 describe it: KEYSET mirrors `CTX`, ERR is 1
exactly when ERRCODE is not 0, ERRCODE is at most 9, and the reserved bits are 0. -/
abbrev statusLegal (s : State) : Prop :=
  statusKeyset s.status = BitVec.ofNat 1 (keysetBit s.ctx)
    ∧ (statusErr s.status = 1 ↔ statusErrcode s.status ≠ 0)
    ∧ (statusErrcode s.status).toNat ≤ 9
    ∧ statusReservedLow s.status = 0
    ∧ statusReservedHigh s.status = 0

/-- The reserved bits of CTRL are 0 (10_state.md R32). -/
abbrev ctrlLegal (s : State) : Prop := s.ctrl &&& ~~~ctrlMask = 0

/-- `KEYINT` is empty while `CTX = Uninitialized` and has a legal length while `CTX = KeySet`
(10_state.md R44). -/
abbrev keyLegal (s : State) : Prop :=
  (s.ctx = .uninitialized → s.keyint = [])
    ∧ (s.ctx = .keySet → s.keyint.length = 16 ∨ s.keyint.length = 24 ∨ s.keyint.length = 32)

/-- What holds at reset and after every step. -/
abbrev State.Inv (s : State) : Prop :=
  statusLegal s ∧ ctrlLegal s ∧ keyLegal s ∧ s.mem.wf = true

/-! ### When a command runs its execution phase -/

/-- The nonce length is legal (41_formatter.md R101). -/
abbrev nonceReady (s : State) : Prop := 7 ≤ opN s ∧ opN s ≤ 13

/-- The tag length is legal (41_formatter.md R102). -/
abbrev tagReady (s : State) : Prop := opT s ∈ [4, 6, 8, 10, 12, 14, 16]

/-- The message length fits its field (41_formatter.md R103). -/
abbrev lengthReady (s : State) : Prop := opM s < 2 ^ (8 * (15 - opN s))

/-- A nonempty range ends at or below 2^64 (20_memory.md R63, R64). -/
abbrev rangeReady (addr len : Nat) : Prop := 0 < len → addr + len ≤ 2 ^ 64

/-- Every byte of a range is admitted (20_memory.md R69). -/
abbrev admitted (s : State) (kind : AccessKind) (addr len : Nat) : Prop :=
  ∀ j < len, memAdmit s.platform kind (addr + j) = true

/-- RAWMAC passes its validation and its reads are admitted (42_cbc_mac.md R134). -/
abbrev rawmacReady (s : State) : Prop :=
  s.ctx = .keySet ∧ nonceReady s ∧ tagReady s ∧ lengthReady s
    ∧ rangeReady (aadAddr s) (opA s) ∧ rangeReady (inAddr s) (opM s)
    ∧ admitted s .read (aadAddr s) (opA s) ∧ admitted s .read (inAddr s) (opM s)

/-- ENCRYPT and DECRYPT pass their validation (45_context.md R202, R205). -/
abbrev messageValid (s : State) : Prop :=
  s.ctx = .keySet ∧ nonceReady s ∧ tagReady s ∧ lengthReady s
    ∧ rangeReady (aadAddr s) (opA s) ∧ rangeReady (inAddr s) (opM s)
    ∧ rangeReady (outAddr s) (opM s)

/-- Two nonempty ranges share no byte. -/
abbrev apart (addr₁ len₁ addr₂ len₂ : Nat) : Prop :=
  0 < len₁ → 0 < len₂ → ∀ a, ¬(addr₁ ≤ a ∧ a < addr₁ + len₁ ∧ addr₂ ≤ a ∧ a < addr₂ + len₂)

/-- The two cases of overlap that 20_memory.md R70 defines. -/
abbrev buffersPlaced (s : State) : Prop :=
  (opM s = 0 ∨ inAddr s = outAddr s ∨ apart (inAddr s) (opM s) (outAddr s) (opM s))
    ∧ apart (aadAddr s) (opA s) (outAddr s) (opM s)

/-- The message command's reads and writes are admitted (20_memory.md R69). -/
abbrev messageAdmitted (s : State) : Prop :=
  admitted s .read (aadAddr s) (opA s) ∧ admitted s .read (inAddr s) (opM s)
    ∧ admitted s .write (outAddr s) (opM s)

/-- The reads of a message command are admitted and no call of `E` of its first pass fails, so that DECRYPT
makes its comparison (45_context.md R205, 60_exceptions.md R233). -/
abbrev firstPassDone (s : State) : Prop :=
  admitted s .read (aadAddr s) (opA s) ∧ admitted s .read (inAddr s) (opM s)
    ∧ cipherFails (macBlocks (opA s) (opM s) + 1 + nblocks (opM s)) s = false

/-- The input message under the keystream: the ciphertext ENCRYPT writes, or the plaintext `P'` DECRYPT
recovers (45_context.md R202, R205). -/
abbrev transformedInput (s : State) : Bytes :=
  ctrCrypt s.keyint (opNonce s) (memRead s.mem (inAddr s) (opM s))

/-- The tag of the plaintext `p` with the key, nonce, AAD and tag length of `s`, written out: the first `t`
bytes of the CBC-MAC of the formatted blocks XOR the encryption of counter block 0
(42_cbc_mac.md R131, R132, 44_tag_mask_verify.md R171). -/
abbrev tagOver (s : State) (p : Bytes) : Bytes :=
  msb (opT s) (xorBytes
    (cbcMac s.keyint (blockB0 (opNonce s) (opT s) (opA s) p.length
      ++ fmtAad (memRead s.mem (aadAddr s) (opA s)) ++ fmtMsg p))
    (cipherE s.keyint (blockCtr (opNonce s) 0)))

/-- The tag over the plaintext DECRYPT recovers equals the supplied tag, the first `t` bytes of TAG
(45_context.md R205). -/
abbrev tagsEqual (s : State) : Prop := tagOver s (transformedInput s) = msb (opT s) s.tag.bytes

/-- Whether an address lies in the output range. -/
abbrev inOutput (s : State) (a : Nat) : Prop := outAddr s ≤ a ∧ a < outAddr s + opM s

/-! ### The check order -/

/-- A row of the table of 60_exceptions.md R226: the commands that make the check, the check, and the error
of a command that fails it. -/
structure CheckRow where
  commands : List Instr
  passes : State → Bool
  error : ErrCode

/-- Steps 2 to 7 of 60_exceptions.md R226, in order. Step 1, that the word decodes, comes before a command is
selected. -/
def checkTable : List CheckRow :=
  [ ⟨[.format, .rawmac, .keystream, .maskmac, .verify, .encrypt, .decrypt],
      fun s => decide (s.ctx = .keySet), .notInitialized⟩,
    ⟨[.setkey], fun s => decide (opK s ∈ [16, 24, 32]), .invalidKeyLength⟩,
    ⟨[.format, .rawmac, .keystream, .maskmac, .encrypt, .decrypt],
      fun s => decide (nonceReady s), .invalidNonceLength⟩,
    ⟨[.format, .rawmac, .maskmac, .verify, .encrypt, .decrypt],
      fun s => decide (tagReady s), .invalidTagLength⟩,
    ⟨[.format, .rawmac, .encrypt, .decrypt], fun s => decide (lengthReady s), .messageTooLong⟩,
    ⟨[.keystream], fun s => decide (opI s < 2 ^ (8 * (15 - opN s))), .messageTooLong⟩,
    ⟨[.rawmac, .encrypt, .decrypt],
      fun s => decide (rangeReady (aadAddr s) (opA s)), .bufferFault⟩,
    ⟨[.rawmac, .encrypt, .decrypt],
      fun s => decide (rangeReady (inAddr s) (opM s)), .bufferFault⟩,
    ⟨[.encrypt, .decrypt],
      fun s => decide (rangeReady (outAddr s) (opM s)), .bufferFault⟩ ]

/-- The error of the first check of the table that a command makes and fails (60_exceptions.md R226, R228). -/
def firstFailing (i : Instr) (s : State) : Option ErrCode :=
  (checkTable.find? fun row => row.commands.contains i && !row.passes s).map CheckRow.error

/-! ### What the host can see -/

/-- The four registers of a group, the first first (10_state.md R22). -/
def quadWords (q : Quad) : List Word := [q.w0, q.w1, q.w2, q.w3]

/-- What the table of 10_state.md R22 gives the host at a register: what the register holds, or 0 for a
write-only one (R26). It is written from the fields of State, not through the reads of the engine. -/
def shownValue (s : State) : Reg → Word
  | .cmd => 0
  | .status => s.status
  | .ctrl => s.ctrl
  | .key _ => 0
  | .nonce i => (quadWords s.nonce).getD i 0
  | .alen .lo => s.alen.lo
  | .alen .hi => s.alen.hi
  | .mlen .lo => s.mlen.lo
  | .mlen .hi => s.mlen.hi
  | .aadaddr .lo => s.aadaddr.lo
  | .aadaddr .hi => s.aadaddr.hi
  | .inaddr .lo => s.inaddr.lo
  | .inaddr .hi => s.inaddr.hi
  | .outaddr .lo => s.outaddr.lo
  | .outaddr .hi => s.outaddr.hi
  | .ctrv .lo => s.ctrv.lo
  | .ctrv .hi => s.ctrv.hi
  | .tag i => (quadWords s.tag).getD i 0
  | .data i => (quadWords s.data).getD i 0
  | .b0 i => (quadWords s.b0).getD i 0
  | .ctr0 i => (quadWords s.ctr0).getD i 0

/-- Two states that differ at most in the held key and the staged key. -/
abbrev sameButKey (s s' : State) : Prop :=
  { s with key := KeyStage.zero, keyint := [] } = { s' with key := KeyStage.zero, keyint := [] }

/-- Two outcomes that differ at most in the held key and the staged key of the next state. -/
def sameOutcomeButKey : Out → Out → Prop
  | .next s, .next s' => sameButKey s s'
  | .fault r, .fault r' => r = r'
  | .refused r, .refused r' => r = r'
  | _, _ => False

/-- The commands that call `E` under the held key (60_exceptions.md R222, code 7). -/
def callsCipher (i : Instr) : Prop := i ∈ [.rawmac, .keystream, .maskmac, .encrypt, .decrypt]

/-- An action that starts no command that calls `E`. -/
def keyless : HostAction → Prop
  | .write _ offset v => regAt offset = some .cmd → ∀ i, decode v = .command i → ¬callsCipher i
  | .read _ _ => True
  | .store _ _ => True
  | .reset => True
  | .resetDuring v => ∀ i, decode v = .command i → ¬callsCipher i

end Sys2Proof.Machine
end

