-- ==== Sys2Proof/Certificates/Slice0/Obligations.lean ====
section
/-!
DEFINITION. The statements for the provers. Each docstring names the rule or the section it comes from.
-/
open Sys2Proof Sys2Proof.Machine

/-! ### The command word -/

/-- R81, R82: each word of the map decodes to its command, no other word does, and decoding is total. -/
def Obligations.EachWordDecodesToItsCommand : Prop :=
  (∀ (w : Word) (i : Instr), decode w = .command i ↔ w = encode i)
    ∧ (encode .setkey = 0x00000001 ∧ encode .free = 0x00000002 ∧ encode .format = 0x00000003
      ∧ encode .rawmac = 0x00000004 ∧ encode .keystream = 0x00000005 ∧ encode .maskmac = 0x00000006
      ∧ encode .verify = 0x00000007 ∧ encode .encrypt = 0x00000008 ∧ encode .decrypt = 0x00000009)
    ∧ ∀ w : Word, (∃ why, decode w = .rejected why) ↔
        (cmdReserved w ≠ 0 ∨ (cmdOpcode w).toNat = 0 ∨ 0xA ≤ (cmdOpcode w).toNat)

/-- 30_encoding.md section 2, 95_test_vectors.md V-ERR-2: words written out from the map. -/
def Obligations.WrittenOutWordsDecode : Prop :=
  decode 0x00000001 = .command .setkey ∧ decode 0x00000003 = .command .format
    ∧ decode 0x00000004 = .command .rawmac ∧ decode 0x00000005 = .command .keystream
    ∧ decode 0x00000006 = .command .maskmac ∧ decode 0x00000009 = .command .decrypt
    ∧ decode 0x00000000 = .rejected .reservedOpcode ∧ decode 0x0000000A = .rejected .reservedOpcode
    ∧ decode 0x00000011 = .rejected .reservedBits ∧ decode 0x80000008 = .rejected .reservedBits

/-- 00_scope.md section 7: the step of a CMD write whose word decodes is the command's meaning at that state,
with the action taken from the bus and no read value. -/
def Obligations.StepRunsTheDecodedCommand : Prop :=
  ∀ (s : State) (rest : List HostAction) (w : Word) (i : Instr),
    s.bus = .write 32 0x000 w :: rest → decode w = .command i →
      step s = exec i { s with bus := rest, reply := none }

/-- R84: IllegalCommand changes nothing but STATUS, whose KEYSET keeps its value. The premise on KEYSET is a
part of the invariant. -/
def Obligations.IllegalCommandChangesStatusAlone : Prop :=
  ∀ (s : State) (rest : List HostAction) (w : Word),
    s.bus = .write 32 0x000 w :: rest →
    (cmdReserved w ≠ 0 ∨ (cmdOpcode w).toNat = 0 ∨ 0xA ≤ (cmdOpcode w).toNat) →
    statusKeyset s.status = BitVec.ofNat 1 (keysetBit s.ctx) →
      ∃ st : Word, step s = .next { s with bus := rest, reply := none, status := st }
        ∧ statusErr st = 1 ∧ statusErrcode st = 8 ∧ statusKeyset st = statusKeyset s.status
        ∧ statusReservedLow st = 0 ∧ statusReservedHigh st = 0

/-! ### The register file -/

/-- 10_state.md section 2: which offset names which register, and which offsets name none. -/
def Obligations.RegisterWindowMap : Prop :=
  (regAt 0x000 = some .cmd ∧ regAt 0x004 = some .status ∧ regAt 0x008 = some .ctrl)
    ∧ (∀ i : Fin 8, regAt (BitVec.ofNat 12 (0x010 + 4 * i.val)) = some (.key i))
    ∧ (∀ i : Fin 4, regAt (BitVec.ofNat 12 (0x030 + 4 * i.val)) = some (.nonce i)
      ∧ regAt (BitVec.ofNat 12 (0x070 + 4 * i.val)) = some (.tag i)
      ∧ regAt (BitVec.ofNat 12 (0x080 + 4 * i.val)) = some (.data i)
      ∧ regAt (BitVec.ofNat 12 (0x090 + 4 * i.val)) = some (.b0 i)
      ∧ regAt (BitVec.ofNat 12 (0x0A0 + 4 * i.val)) = some (.ctr0 i))
    ∧ (regAt 0x040 = some (.alen .lo) ∧ regAt 0x044 = some (.alen .hi)
      ∧ regAt 0x048 = some (.mlen .lo) ∧ regAt 0x04C = some (.mlen .hi)
      ∧ regAt 0x050 = some (.aadaddr .lo) ∧ regAt 0x054 = some (.aadaddr .hi)
      ∧ regAt 0x058 = some (.inaddr .lo) ∧ regAt 0x05C = some (.inaddr .hi)
      ∧ regAt 0x060 = some (.outaddr .lo) ∧ regAt 0x064 = some (.outaddr .hi)
      ∧ regAt 0x068 = some (.ctrv .lo) ∧ regAt 0x06C = some (.ctrv .hi))
    ∧ ∀ off : BitVec 12, off.toNat % 4 = 0 →
        (regAt off = none ↔ off.toNat = 0x00C ∨ 0x0B0 ≤ off.toNat)

/-- R25: a register access of another width, or at an offset that is not a multiple of 4, is refused. -/
def Obligations.OddRegisterAccessIsRefused : Prop :=
  ∀ (s : State) (rest : List HostAction) (bits : Nat) (off : BitVec 12) (v : Word),
    (bits ≠ 32 ∨ off.toNat % 4 ≠ 0) →
    (s.bus = .write bits off v :: rest ∨ s.bus = .read bits off :: rest) →
      ∃ r : Refusal, step s = .refused r

/-- R26: reserved offsets, reserved bits, write-only registers read and read-only registers written. -/
def Obligations.ReservedAndOneWayRegisters : Prop :=
  ∀ (s : State) (rest : List HostAction) (off : BitVec 12) (v : Word), off.toNat % 4 = 0 →
    (s.bus = .read 32 off :: rest →
      (regAt off = none ∨ regAt off = some .cmd ∨ ∃ i, regAt off = some (.key i)) →
        step s = .next { s with bus := rest, reply := some 0 })
    ∧ (s.bus = .write 32 off v :: rest →
      (regAt off = none ∨ regAt off = some .status ∨ (∃ i, regAt off = some (.b0 i))
        ∨ ∃ i, regAt off = some (.ctr0 i)) →
        step s = .next { s with bus := rest, reply := none })
    ∧ (State.Inv s → readReg .ctrl s &&& 0xFFC0F0E0 = 0 ∧ readReg .status s &&& 0xFFFFFF0C = 0)
    ∧ (s.bus = .write 32 off v :: rest → regAt off = some .ctrl →
      ∃ t, step s = .next t ∧ t.ctrl &&& 0xFFC0F0E0 = 0
        ∧ t.ctrl &&& 0x003F0F1F = v &&& 0x003F0F1F)

/-- R28: a write of a read-write register stores the value and does nothing else; CTRL stores the value
without its reserved bits. -/
def Obligations.RegisterWriteStoresTheValue : Prop :=
  ∀ (s : State) (rest : List HostAction) (r : Reg) (v : Word),
    s.bus = .write 32 r.windowOffset v :: rest →
    (r = .ctrl → step s = .next { s with bus := rest, reply := none, ctrl := v &&& 0x003F0F1F })
    ∧ (r ≠ .cmd → r ≠ .status → r ≠ .ctrl → (∀ i, r ≠ .key i) → (∀ i, r ≠ .b0 i) →
        (∀ i, r ≠ .ctr0 i) →
      ∃ t, step s = .next t ∧ readReg r t = v ∧ (∀ r', r' ≠ r → readReg r' t = readReg r' s)
        ∧ t.key = s.key ∧ t.ctx = s.ctx ∧ t.keyint = s.keyint ∧ t.mem = s.mem
        ∧ t.platform = s.platform ∧ t.oracle = s.oracle ∧ t.freeSeed = s.freeSeed
        ∧ t.bus = rest ∧ t.reply = none)

/-- 10_state.md sections 2 and 4: a write of KEYi replaces the staged bytes 4i to 4i+3, and nothing else. -/
def Obligations.KeyStagingWriteReplacesFourBytes : Prop :=
  ∀ (s : State) (rest : List HostAction) (i : Fin 8) (v : Word),
    s.bus = .write 32 (Reg.windowOffset (.key i)) v :: rest →
      ∃ k : KeyStage, step s = .next { s with bus := rest, reply := none, key := k }
        ∧ k.bytes = s.key.bytes.take (4 * i.val) ++ wordBytes v ++ s.key.bytes.drop (4 * i.val + 4)

/-- R23: the packing of byte strings in register groups, with its worked example. -/
def Obligations.RegisterGroupPacking : Prop :=
  (∀ (q : Quad) (i j : Fin 4),
      q.bytes.getD (4 * i.val + j.val) 0 = (q.get i).extractLsb' (8 * j.val) 8)
    ∧ (∀ (k : KeyStage) (i : Fin 8) (j : Fin 4),
      k.bytes.getD (4 * i.val + j.val) 0 = (k.get i).extractLsb' (8 * j.val) 8)
    ∧ (∀ (b : Bytes) (i : Fin 4), b.length = 16 →
      ((Quad.ofBytes b).get i).toNat
        = (b.getD (4 * i.val) 0).toNat + 2 ^ 8 * (b.getD (4 * i.val + 1) 0).toNat
          + 2 ^ 16 * (b.getD (4 * i.val + 2) 0).toNat + 2 ^ 24 * (b.getD (4 * i.val + 3) 0).toNat)
    ∧ (∀ b : Bytes, b.length = 16 → (Quad.ofBytes b).bytes = b)
    ∧ Quad.ofBytes [0x4f, 0x10, 0x11, 0x12, 0x13, 0x14, 0x15, 0x16, 0, 0, 0, 0, 0, 0, 0, 0x04]
      = ⟨0x1211104F, 0x16151413, 0x00000000, 0x04000000⟩

/-- 70_reset_and_hazards.md section 3: a command's 64-bit operand takes both halves as they are, so a write
of one half keeps the other. -/
def Obligations.PairWriteKeepsTheOtherHalf : Prop :=
  ∀ (s : State) (v : Word),
    opA (writeReg (.alen .lo) v s) = v.toNat + 2 ^ 32 * (readReg (.alen .hi) s).toNat
    ∧ opA (writeReg (.alen .hi) v s) = (readReg (.alen .lo) s).toNat + 2 ^ 32 * v.toNat
    ∧ opM (writeReg (.mlen .lo) v s) = v.toNat + 2 ^ 32 * (readReg (.mlen .hi) s).toNat
    ∧ opM (writeReg (.mlen .hi) v s) = (readReg (.mlen .lo) s).toNat + 2 ^ 32 * v.toNat
    ∧ aadAddr (writeReg (.aadaddr .lo) v s) = v.toNat + 2 ^ 32 * (readReg (.aadaddr .hi) s).toNat
    ∧ aadAddr (writeReg (.aadaddr .hi) v s) = (readReg (.aadaddr .lo) s).toNat + 2 ^ 32 * v.toNat
    ∧ inAddr (writeReg (.inaddr .lo) v s) = v.toNat + 2 ^ 32 * (readReg (.inaddr .hi) s).toNat
    ∧ inAddr (writeReg (.inaddr .hi) v s) = (readReg (.inaddr .lo) s).toNat + 2 ^ 32 * v.toNat
    ∧ outAddr (writeReg (.outaddr .lo) v s) = v.toNat + 2 ^ 32 * (readReg (.outaddr .hi) s).toNat
    ∧ outAddr (writeReg (.outaddr .hi) v s) = (readReg (.outaddr .lo) s).toNat + 2 ^ 32 * v.toNat
    ∧ opI (writeReg (.ctrv .lo) v s) = v.toNat + 2 ^ 32 * (readReg (.ctrv .hi) s).toNat
    ∧ opI (writeReg (.ctrv .hi) v s) = (readReg (.ctrv .lo) s).toNat + 2 ^ 32 * v.toNat

/-- 60_exceptions.md section 1: the nine error codes, how a command's end writes STATUS, and what the fields of
that value are. -/
def Obligations.EndOfACommandWritesStatus : Prop :=
  (ErrCode.invalidKeyLength.code = 1 ∧ ErrCode.invalidNonceLength.code = 2
      ∧ ErrCode.invalidTagLength.code = 3 ∧ ErrCode.messageTooLong.code = 4
      ∧ ErrCode.notInitialized.code = 5 ∧ ErrCode.authenticationFailed.code = 6
      ∧ ErrCode.blockCipherFault.code = 7 ∧ ErrCode.illegalCommand.code = 8
      ∧ ErrCode.bufferFault.code = 9)
    ∧ (∀ s : State, complete s = { s with status := if s.ctx = .keySet then 1 else 0 })
    ∧ (∀ (c : ErrCode) (s : State), raise c s =
        { s with status := BitVec.ofNat 32 ((if s.ctx = .keySet then 1 else 0) + 2 + 16 * c.code) })
    ∧ (∀ (c : ErrCode) (s : State), 1 ≤ c.code ∧ c.code ≤ 9
        ∧ statusErr (raise c s).status = 1
        ∧ (statusErrcode (raise c s).status).toNat = c.code
        ∧ (statusKeyset (raise c s).status = 1 ↔ s.ctx = .keySet))
    ∧ ∀ s : State, statusErr (complete s).status = 0 ∧ statusErrcode (complete s).status = 0
        ∧ (statusKeyset (complete s).status = 1 ↔ s.ctx = .keySet)

/-! ### The host's stores and the idle engine -/

/-- 20_memory.md section 1: a host store gives each stored byte its value and leaves every other byte and the
engine as they are; one past the top of memory is the fault. That a store is a step, and the fault, are the
model's (log 1, 16). -/
def Obligations.HostStoreWritesItsBytesOnly : Prop :=
  ∀ (s : State) (rest : List HostAction) (addr : BitVec 64) (bytes : Bytes),
    s.mem.wf = true → s.bus = .store addr bytes :: rest →
    (addr.toNat + bytes.length ≤ 2 ^ 64 →
      ∃ m : Memory, step s = .next { s with bus := rest, reply := none, mem := m } ∧ m.wf = true
        ∧ (∀ j < bytes.length, m.read (addr.toNat + j) = bytes.getD j 0)
        ∧ ∀ a, (a < addr.toNat ∨ addr.toNat + bytes.length ≤ a) → m.read a = s.mem.read a)
    ∧ (2 ^ 64 < addr.toNat + bytes.length → step s = .fault .hostStorePastTop)

/-- 10_state.md section 1: the engine does nothing by itself. That a step with no host action is a next state
is the model's choice (log 2). -/
def Obligations.EngineWithoutAnActionStays : Prop :=
  ∀ s : State, s.bus = [] → step s = .next s

/-! ### Reset -/

/-- 70_reset_and_hazards.md section 1: reset gives every register its reset value, empties the key and leaves no key byte; the buffer
memory stays. State.reset has the same register values. -/
def Obligations.ResetValues : Prop :=
  (∀ (s : State) (rest : List HostAction), s.bus = .reset :: rest →
    ∃ t, step s = .next t
      ∧ (∀ r, readReg r t = if r = .ctrl then 0x00000010 else 0x00000000)
      ∧ t.key = KeyStage.zero ∧ t.ctx = .uninitialized ∧ t.keyint = []
      ∧ t.mem = s.mem ∧ t.bus = rest)
    ∧ (∀ r, readReg r State.reset = if r = .ctrl then 0x00000010 else 0x00000000)
    ∧ State.reset.key = KeyStage.zero ∧ State.reset.ctx = .uninitialized ∧ State.reset.keyint = []

/-- 70_reset_and_hazards.md section 1: a reset during a command leaves the reset registers, and a byte of the
buffer memory is as before but in the output range of ENCRYPT or DECRYPT, where it may be the ciphertext's,
or 0, or the plaintext's when the comparison was made and the tags are equal. That such a reset is a step is
the model's (log 14). -/
def Obligations.ResetDuringACommand : Prop :=
  ∀ (s : State) (rest : List HostAction) (w : Word),
    s.mem.wf = true → s.bus = .resetDuring w :: rest →
    (buffersPlaced s → ∃ t, step s = .next t)
    ∧ ∀ t, step s = .next t →
      (∀ r, readReg r t = if r = .ctrl then 0x00000010 else 0x00000000)
      ∧ t.key = KeyStage.zero ∧ t.ctx = .uninitialized ∧ t.keyint = []
      ∧ ∀ a, t.mem.read a = s.mem.read a
        ∨ (messageValid s ∧ inOutput s a
          ∧ ((w = 0x00000008 ∧ t.mem.read a = (transformedInput s).getD (a - outAddr s) 0)
            ∨ (w = 0x00000009 ∧ (t.mem.read a = 0
                ∨ (firstPassDone s ∧ tagsEqual s
                  ∧ t.mem.read a = (transformedInput s).getD (a - outAddr s) 0)))))

/-! ### The invariant -/

/-- 10_state.md sections 3 and 5, 60_exceptions.md section 1: STATUS agrees with `CTX` and with itself, the
reserved bits stay 0, the held key has a legal length exactly when there is one, and the memory keeps its
form, from every state in which they do. -/
def Obligations.EveryStepKeepsTheInvariant : Prop :=
  ∀ s t : State, State.Inv s → step s = .next t → State.Inv t

/-- The same holds right after reset. -/
def Obligations.ResetMeetsTheInvariant : Prop := State.Inv State.reset

/-! ### CCM_formatter -/

/-- R104, R105: B0 byte by byte, with the worked example. -/
def Obligations.B0Layout : Prop :=
  (∀ (nonce : Bytes) (t a m : Nat), 7 ≤ nonce.length → nonce.length ≤ 13 →
    t ∈ [4, 6, 8, 10, 12, 14, 16] → m < 2 ^ (8 * (15 - nonce.length)) →
      (blockB0 nonce t a m).length = 16
      ∧ (((blockB0 nonce t a m).getD 0 0).extractLsb' 7 1 = 0
        ∧ (((blockB0 nonce t a m).getD 0 0).extractLsb' 6 1).toNat = (if a > 0 then 1 else 0)
        ∧ (((blockB0 nonce t a m).getD 0 0).extractLsb' 3 3).toNat = (t - 2) / 2
        ∧ (((blockB0 nonce t a m).getD 0 0).extractLsb' 0 3).toNat = 15 - nonce.length - 1)
      ∧ (∀ j < nonce.length, (blockB0 nonce t a m).getD (1 + j) 0 = nonce.getD j 0)
      ∧ beValue ((blockB0 nonce t a m).drop (1 + nonce.length)) = m)
    ∧ blockB0 [0x10, 0x11, 0x12, 0x13, 0x14, 0x15, 0x16] 4 8 4
      = [0x4f, 0x10, 0x11, 0x12, 0x13, 0x14, 0x15, 0x16, 0, 0, 0, 0, 0, 0, 0, 0x04]

/-- R106: a counter block byte by byte, with the worked examples. -/
def Obligations.CounterBlockLayout : Prop :=
  (∀ (nonce : Bytes) (i : Nat), 7 ≤ nonce.length → nonce.length ≤ 13 →
    i < 2 ^ (8 * (15 - nonce.length)) →
      (blockCtr nonce i).length = 16
      ∧ ((blockCtr nonce i).getD 0 0).toNat = 15 - nonce.length - 1
      ∧ (∀ j < nonce.length, (blockCtr nonce i).getD (1 + j) 0 = nonce.getD j 0)
      ∧ beValue ((blockCtr nonce i).drop (1 + nonce.length)) = i)
    ∧ blockCtr [0x10, 0x11, 0x12, 0x13, 0x14, 0x15, 0x16] 0
      = [0x07, 0x10, 0x11, 0x12, 0x13, 0x14, 0x15, 0x16, 0, 0, 0, 0, 0, 0, 0, 0]
    ∧ blockCtr [0x10, 0x11, 0x12, 0x13, 0x14, 0x15, 0x16] 1
      = [0x07, 0x10, 0x11, 0x12, 0x13, 0x14, 0x15, 0x16, 0, 0, 0, 0, 0, 0, 0, 0x01]

/-- R107: the AAD header by magnitude, with the worked examples. -/
def Obligations.AadHeaderByMagnitude : Prop :=
  (∀ a : Nat, a < 2 ^ 64 →
    (a = 0 → aadHeader a = [])
    ∧ (1 ≤ a → a < 2 ^ 16 - 2 ^ 8 → (aadHeader a).length = 2 ∧ beValue (aadHeader a) = a)
    ∧ (2 ^ 16 - 2 ^ 8 ≤ a → a < 2 ^ 32 → (aadHeader a).length = 6
      ∧ (aadHeader a).take 2 = [0xFF, 0xFE] ∧ beValue ((aadHeader a).drop 2) = a)
    ∧ (2 ^ 32 ≤ a → (aadHeader a).length = 10
      ∧ (aadHeader a).take 2 = [0xFF, 0xFF] ∧ beValue ((aadHeader a).drop 2) = a))
    ∧ aadHeader 8 = [0x00, 0x08] ∧ aadHeader 0xFEFF = [0xFE, 0xFF]
    ∧ aadHeader 0xFF00 = [0xFF, 0xFE, 0x00, 0x00, 0xFF, 0x00]
    ∧ aadHeader 65536 = [0xFF, 0xFE, 0x00, 0x01, 0x00, 0x00]
    ∧ aadHeader (2 ^ 32) = [0xFF, 0xFF, 0x00, 0x00, 0x00, 0x01, 0x00, 0x00, 0x00, 0x00]

/-- R108: header, bytes and zero padding to a block boundary; an absent string has no block. -/
def Obligations.FormattedStringsArePadded : Prop :=
  (∀ aad : Bytes, aad.length = 0 → fmtAad aad = [])
    ∧ (∀ aad : Bytes, 0 < aad.length →
      (fmtAad aad).length = 16 * nblocks ((aadHeader aad.length).length + aad.length)
      ∧ (fmtAad aad).take (aadHeader aad.length).length = aadHeader aad.length
      ∧ ((fmtAad aad).drop (aadHeader aad.length).length).take aad.length = aad
      ∧ ∀ b ∈ (fmtAad aad).drop ((aadHeader aad.length).length + aad.length), b = 0)
    ∧ (∀ p : Bytes, (fmtMsg p).length = 16 * nblocks p.length
      ∧ (fmtMsg p).take p.length = p ∧ ∀ b ∈ (fmtMsg p).drop p.length, b = 0)

/-- R112: B0 never equals a counter block under the same nonce length. -/
def Obligations.B0IsNeverACounterBlock : Prop :=
  ∀ (nonce nonce' : Bytes) (t a m i : Nat), nonce.length = nonce'.length →
    7 ≤ nonce.length → nonce.length ≤ 13 → t ∈ [4, 6, 8, 10, 12, 14, 16] →
      1 ≤ (((blockB0 nonce t a m).getD 0 0).extractLsb' 3 3).toNat
      ∧ (((blockCtr nonce' i).getD 0 0).extractLsb' 3 3).toNat = 0
      ∧ blockB0 nonce t a m ≠ blockCtr nonce' i

/-- R113: the number of blocks of the CBC-MAC input, which is the number of calls of `E` the MAC makes, with
its examples. -/
def Obligations.MacInputBlockCount : Prop :=
  (∀ (nonce aad p : Bytes) (t : Nat), 7 ≤ nonce.length → nonce.length ≤ 13 →
    (blockB0 nonce t aad.length p.length ++ fmtAad aad ++ fmtMsg p).length
      = 16 * macBlocks aad.length p.length
    ∧ macBlocks aad.length p.length
      = 1 + (if aad.length = 0 then 0 else nblocks ((aadHeader aad.length).length + aad.length))
        + nblocks p.length
    ∧ (aad.length < 2 ^ 64 → (aadHeader aad.length).length ∈ [0, 2, 6, 10]))
    ∧ macBlocks 0 0 = 1 ∧ macBlocks 14 0 = 2 ∧ macBlocks 15 0 = 3

/-- 41_formatter.md section 4: the largest counter a message uses fits its field. -/
def Obligations.MessageCountersFitTheirField : Prop :=
  ∀ n m : Nat, 7 ≤ n → n ≤ 13 → m < 2 ^ (8 * (15 - n)) →
    nblocks m ≤ 2 ^ (8 * (15 - n) - 4) ∧ 2 ^ (8 * (15 - n) - 4) < 2 ^ (8 * (15 - n))

/-- 43_counter_mode.md section 4: successive counter blocks differ only in their last `L` bytes, and two
counters that fit the field never give the same block. -/
def Obligations.CounterIncrementStaysInItsField : Prop :=
  ∀ (nonce : Bytes) (i j : Nat), 7 ≤ nonce.length → nonce.length ≤ 13 →
    i < 2 ^ (8 * (15 - nonce.length)) → j < 2 ^ (8 * (15 - nonce.length)) →
      (blockCtr nonce i).take (1 + nonce.length) = (blockCtr nonce j).take (1 + nonce.length)
      ∧ (blockCtr nonce i).drop (1 + nonce.length) = be i (15 - nonce.length)
      ∧ (blockCtr nonce i = blockCtr nonce j → i = j)

/-- 41_formatter.md section 3: FORMAT completes, writes B0 and the counter block 0, and changes nothing else;
it uses no key. -/
def Obligations.FormatWritesB0AndCtr0 : Prop :=
  ∀ s : State, s.ctx = .keySet → nonceReady s → tagReady s → lengthReady s →
    exec .format s = .next { s with
        b0 := Quad.ofBytes (blockB0 (opNonce s) (opT s) (opA s) (opM s))
        ctr0 := Quad.ofBytes (blockCtr (opNonce s) 0)
        status := 0x00000001 }
    ∧ (Quad.ofBytes (blockB0 (opNonce s) (opT s) (opA s) (opM s))).bytes
      = blockB0 (opNonce s) (opT s) (opA s) (opM s)
    ∧ (Quad.ofBytes (blockCtr (opNonce s) 0)).bytes = blockCtr (opNonce s) 0

/-! ### CBC_MAC_engine -/

/-- R131: the CBC-MAC of one block, and of a string with one more block. -/
def Obligations.CbcMacChainsItsBlocks : Prop :=
  (∀ key x : Bytes, x.length = 16 → cbcMac key x = cipherE key x)
    ∧ ∀ key x b : Bytes, 0 < x.length → x.length % 16 = 0 → b.length = 16 →
        cbcMac key (x ++ b) = cipherE key (xorBytes (cbcMac key x) b)

/-- 42_cbc_mac.md section 2: RAWMAC completes with the raw MAC of the buffers in DATA, and changes nothing
else; the oracle of `E` moves on by the calls made (the model's own field, log 7). -/
def Obligations.RawmacWritesTheRawMac : Prop :=
  ∀ s : State, rawmacReady s → cipherFails (macBlocks (opA s) (opM s)) s = false →
    exec .rawmac s = .next { afterCalls (macBlocks (opA s) (opM s)) s with
        data := Quad.ofBytes (cbcMac s.keyint
          (blockB0 (opNonce s) (opT s) (opA s) (opM s)
            ++ fmtAad (memRead s.mem (aadAddr s) (opA s))
            ++ fmtMsg (memRead s.mem (inAddr s) (opM s))))
        status := 0x00000001 }

/-! ### counter_mode_keystream -/

/-- R152, R153: the CTR transform byte by byte; the output has the input's length. -/
def Obligations.CtrTransformMasksEachByte : Prop :=
  ∀ key nonce x : Bytes,
    (ctrCrypt key nonce x).length = x.length
    ∧ ∀ j < x.length, (ctrCrypt key nonce x).getD j 0
        = x.getD j 0 ^^^ (cipherE key (blockCtr nonce (j / 16 + 1))).getD (j % 16) 0

/-- R155: the CTR transform is its own inverse and acts byte by byte. -/
def Obligations.CtrTransformIsAnInvolution : Prop :=
  ∀ key nonce x y : Bytes,
    ctrCrypt key nonce (ctrCrypt key nonce x) = x
    ∧ (x.length = y.length → ∀ j < x.length,
        ((ctrCrypt key nonce x).getD j 0 = (ctrCrypt key nonce y).getD j 0
          ↔ x.getD j 0 = y.getD j 0))

/-- 43_counter_mode.md section 3: KEYSTREAM completes with the keystream block of CTRV in DATA, whatever
CTRL.TAGLEN holds, and changes nothing else; the oracle of `E` moves on by one call (log 7). -/
def Obligations.KeystreamWritesTheBlockOfItsCounter : Prop :=
  ∀ s : State, s.ctx = .keySet → nonceReady s → opI s < 2 ^ (8 * (15 - opN s)) →
    cipherFails 1 s = false →
      exec .keystream s = .next { afterCalls 1 s with
        data := Quad.ofBytes (cipherE s.keyint (blockCtr (opNonce s) (opI s)))
        status := 0x00000001 }

/-! ### CCM_tag_mask_and_verify -/

/-- R172: truncation and XOR commute, so the bytes from `t` on affect no tag. -/
def Obligations.TagDependsOnItsFirstBytes : Prop :=
  ∀ (key nonce r r' : Bytes) (t : Nat), r.length = 16 → r'.length = 16 → t ≤ 16 →
    maskMac key nonce r t = xorBytes (msb t r) (msb t (cipherE key (blockCtr nonce 0)))
    ∧ (msb t r = msb t r' → maskMac key nonce r t = maskMac key nonce r' t)

/-- R175: the accumulating comparison is equality of the first `t` bytes. -/
def Obligations.ComparisonIsEqualityOfTheTags : Prop :=
  ∀ (x y : Bytes) (t : Nat), t ≤ x.length → t ≤ y.length →
    (ctEqual x y t = true ↔ msb t x = msb t y)

/-- 44_tag_mask_verify.md section 3: MASKMAC completes with the tag of DATA in TAG, its bytes from `t` on zero,
and changes nothing else; the oracle of `E` moves on by one call (log 7). -/
def Obligations.MaskmacWritesTheTag : Prop :=
  ∀ s : State, s.ctx = .keySet → nonceReady s → tagReady s → cipherFails 1 s = false →
    exec .maskmac s = .next { afterCalls 1 s with
        tag := Quad.ofBytes
          (msb (opT s) (xorBytes s.data.bytes (cipherE s.keyint (blockCtr (opNonce s) 0)))
            ++ zeros (16 - opT s))
        status := 0x00000001 }
    ∧ (Quad.ofBytes
          (msb (opT s) (xorBytes s.data.bytes (cipherE s.keyint (blockCtr (opNonce s) 0)))
            ++ zeros (16 - opT s))).bytes.drop (opT s) = zeros (16 - opT s)

/-- R178: VERIFY's word, its two errors of validation in their order, and its two results; nothing but STATUS
changes. -/
def Obligations.VerifyReportsTheComparison : Prop :=
  decode 0x00000007 = .command .verify
    ∧ ∀ s : State,
      (s.ctx ≠ .keySet → exec .verify s = .next { s with status := 0x00000052 })
      ∧ (s.ctx = .keySet → ¬tagReady s → exec .verify s = .next { s with status := 0x00000033 })
      ∧ (s.ctx = .keySet → tagReady s → msb (opT s) s.data.bytes = msb (opT s) s.tag.bytes →
        exec .verify s = .next { s with status := 0x00000001 })
      ∧ (s.ctx = .keySet → tagReady s → msb (opT s) s.data.bytes ≠ msb (opT s) s.tag.bytes →
        exec .verify s = .next { s with status := 0x00000063 })

/-- R177: RAWMAC and then MASKMAC leave in TAG the tag ENCRYPT computes, where the platform's cipher cannot
fail. -/
def Obligations.RawmacThenMaskmacGivesTheTagOfEncrypt : Prop :=
  ∀ s : State, messageValid s → buffersPlaced s → messageAdmitted s →
    s.platform.cipherCanFail = false →
      ∃ s₁ s₂ s₃, exec .rawmac s = .next s₁ ∧ exec .maskmac s₁ = .next s₂
        ∧ exec .encrypt s = .next s₃ ∧ s₂.tag = s₃.tag
        ∧ msb (opT s) s₂.tag.bytes = tagOver s (memRead s.mem (inAddr s) (opM s))
        ∧ msb (opT s) s₂.tag.bytes
          = maskMac s.keyint (opNonce s)
              (rawMac s.keyint (opNonce s) (opT s) (aadBytes s) (inBytes s)) (opT s)

/-! ### The CCM Context -/

/-- R190, R192: SETKEY's word, its success, which replaces the key in either state, and its failure,
which keeps key and state; the staging is cleared in both. -/
def Obligations.SetkeyLoadsOrKeepsTheKey : Prop :=
  decode 0x00000001 = .command .setkey
    ∧ ∀ s : State,
      (opK s ∈ [16, 24, 32] →
        exec .setkey s = .next { s with
          key := KeyStage.zero
          keyint := s.key.bytes.take (opK s)
          ctx := .keySet
          status := 0x00000001 })
      ∧ (opK s ∉ [16, 24, 32] →
        exec .setkey s = .next { s with
          key := KeyStage.zero
          status := if s.ctx = .keySet then 0x00000013 else 0x00000012 })

/-- R193: FREE's word and its effect, from any state. -/
def Obligations.FreeReleasesTheKey : Prop :=
  decode 0x00000002 = .command .free
    ∧ ∀ s : State, exec .free s = .next { s with
        key := KeyStage.zero
        keyint := []
        ctx := .uninitialized
        status := 0x00000000 }

/-- R195: every command but SETKEY and FREE fails with NotInitialized before any other check. -/
def Obligations.NoCommandRunsWithoutAKey : Prop :=
  ∀ (s : State) (i : Instr), i ≠ .setkey → i ≠ .free → s.ctx ≠ .keySet →
    exec i s = .next { s with status := 0x00000052 }

/-- R196: the Context state machine. -/
def Obligations.ContextStateMachine : Prop :=
  (∀ s : State, opK s ∈ [16, 24, 32] →
      ∃ t, exec .setkey s = .next t ∧ t.ctx = .keySet ∧ statusErrcode t.status = 0
        ∧ t.keyint = s.key.bytes.take (opK s))
    ∧ (∀ s : State, opK s ∉ [16, 24, 32] →
      ∃ t, exec .setkey s = .next t ∧ t.ctx = s.ctx ∧ t.keyint = s.keyint
        ∧ statusErrcode t.status = 1)
    ∧ (∀ s : State, ∃ t, exec .free s = .next t ∧ t.ctx = .uninitialized ∧ t.keyint = []
        ∧ statusErrcode t.status = 0)
    ∧ (∀ (s t : State) (i : Instr), i ≠ .setkey → i ≠ .free → exec i s = .next t →
      t.ctx = s.ctx ∧ t.keyint = s.keyint
        ∧ (s.ctx = .uninitialized → statusErrcode t.status = 5))
    ∧ (∀ (s : State) (rest : List HostAction) (w : Word) (why : DecodeReject),
      s.bus = .write 32 0x000 w :: rest → decode w = .rejected why →
        ∃ t, step s = .next t ∧ t.ctx = s.ctx ∧ t.keyint = s.keyint
          ∧ statusErrcode t.status = 8)
    ∧ ∀ (s : State) (rest : List HostAction), s.bus = .reset :: rest →
        ∃ t, step s = .next t ∧ t.ctx = .uninitialized

/-- R228: a CMD write reports the first check of the table of 60_exceptions.md R226 that fails, the decoding of
the word first, and no other; STATUS alone changes, but for SETKEY's staging. -/
def Obligations.FirstFailedCheckIsReported : Prop :=
  ∀ (s : State) (rest : List HostAction) (w : Word), s.bus = .write 32 0x000 w :: rest →
    (∀ why, decode w = .rejected why →
      step s = .next { s with
        bus := rest
        reply := none
        status := BitVec.ofNat 32 ((if s.ctx = .keySet then 1 else 0) + 2 + 16 * 8) })
    ∧ ∀ (i : Instr) (c : ErrCode), decode w = .command i → firstFailing i s = some c →
      step s = .next
        { (if i = .setkey then { s with key := KeyStage.zero } else s) with
          bus := rest
          reply := none
          status := BitVec.ofNat 32 ((if s.ctx = .keySet then 1 else 0) + 2 + 16 * c.code) }

/-- 20_memory.md section 2: a command is refused only for an overlap of its buffers that is not defined, and
no command faults. -/
def Obligations.CommandsStopOnlyOnUndefinedOverlap : Prop :=
  ∀ (s : State) (i : Instr),
    (∀ r : Refusal, exec i s = .refused r ↔
      (i = .encrypt ∨ i = .decrypt) ∧ messageValid s ∧ ¬buffersPlaced s
        ∧ r = .overlappingBuffers)
    ∧ ∀ f : Fault, exec i s ≠ .fault f

/-- 20_memory.md section 2: with length 0 the address of a buffer plays no part. After an abort the two results are compared for
the same draw of the free values (log 8). -/
def Obligations.EmptyBuffersIgnoreTheirAddress : Prop :=
  ∀ (s : State) (i : Instr) (p q : Pair),
    i = .rawmac ∨ i = .encrypt ∨ i = .decrypt →
    (opA s = 0 →
      exec i { s with aadaddr := p } =
        match exec i s with
        | .next t => .next { t with aadaddr := p }
        | .fault f => .fault f
        | .refused r => .refused r)
    ∧ (opM s = 0 →
      exec i { s with inaddr := p, outaddr := q } =
        match exec i s with
        | .next t => .next { t with inaddr := p, outaddr := q }
        | .fault f => .fault f
        | .refused r => .refused r)

/-- 45_context.md section 3: ENCRYPT completes with the ciphertext in the buffer memory and the tag in TAG, and
changes nothing else; the oracle of `E` moves on by the calls made (log 7). -/
def Obligations.EncryptWritesCiphertextAndTag : Prop :=
  ∀ s : State, messageValid s → buffersPlaced s → messageAdmitted s →
    cipherFails (macBlocks (opA s) (opM s) + 1 + nblocks (opM s)) s = false →
      exec .encrypt s = .next
        { afterCalls (macBlocks (opA s) (opM s) + 1 + nblocks (opM s)) s with
          mem := memWrite s.mem (outAddr s) (transformedInput s)
          tag := Quad.ofBytes
            (tagOver s (memRead s.mem (inAddr s) (opM s)) ++ zeros (16 - opT s))
          status := 0x00000001 }

/-- 60_exceptions.md section 3: whatever way ENCRYPT ends, a byte outside the output range is as before, one
inside is as before or the ciphertext's, TAG is as before or the tag, and no other register changes; when
it succeeds, every byte of the range is the ciphertext's and TAG is the tag. -/
def Obligations.EncryptChangesOnlyItsOutput : Prop :=
  ∀ s t : State, s.mem.wf = true → exec .encrypt s = .next t →
    t = { s with
          mem := t.mem
          tag := t.tag
          status := t.status
          oracle := t.oracle
          freeSeed := t.freeSeed }
    ∧ (∀ a, ¬inOutput s a → t.mem.read a = s.mem.read a)
    ∧ (∀ a, inOutput s a → t.mem.read a = s.mem.read a
        ∨ t.mem.read a = (transformedInput s).getD (a - outAddr s) 0)
    ∧ (t.tag = s.tag ∨ t.tag = Quad.ofBytes
        (tagOver s (memRead s.mem (inAddr s) (opM s)) ++ zeros (16 - opT s)))
    ∧ (statusErr t.status = 0 →
      (∀ a, inOutput s a → t.mem.read a = (transformedInput s).getD (a - outAddr s) 0)
      ∧ t.tag = Quad.ofBytes
        (tagOver s (memRead s.mem (inAddr s) (opM s)) ++ zeros (16 - opT s)))

/-- 60_exceptions.md section 3: the aborts of the commands that write one register group leave that group any
value, change nothing else of the engine, and report their code. The draw of the free value and the oracle
are the model's own fields (log 7, 8). That RAWMAC's reads come before its calls of `E`, so that a read that
is not admitted reports BufferFault whatever the oracle holds, is deduced from the order of the pseudocode
(60_exceptions.md section 4, log 9). -/
def Obligations.AbortsOfRegisterCommands : Prop :=
  ∀ s : State, s.ctx = .keySet → nonceReady s →
    (tagReady s → lengthReady s → rangeReady (aadAddr s) (opA s) → rangeReady (inAddr s) (opM s) →
      ¬(admitted s .read (aadAddr s) (opA s) ∧ admitted s .read (inAddr s) (opM s)) →
        ∃ d : Quad, exec .rawmac s = .next
          { s with data := d, status := 0x00000093, freeSeed := s.freeSeed + 1 })
    ∧ (rawmacReady s → cipherFails (macBlocks (opA s) (opM s)) s = true →
        ∃ d : Quad, exec .rawmac s = .next
          { afterCalls (macBlocks (opA s) (opM s)) s with
            data := d, status := 0x00000073, freeSeed := s.freeSeed + 1 })
    ∧ (opI s < 2 ^ (8 * (15 - opN s)) → cipherFails 1 s = true →
        ∃ d : Quad, exec .keystream s = .next
          { afterCalls 1 s with data := d, status := 0x00000073, freeSeed := s.freeSeed + 1 })
    ∧ (tagReady s → cipherFails 1 s = true →
        ∃ d : Quad, exec .maskmac s = .next
          { afterCalls 1 s with tag := d, status := 0x00000073, freeSeed := s.freeSeed + 1 })

/-- 60_exceptions.md sections 3 and 4: which code each abort of ENCRYPT and DECRYPT reports; the reads come
before the calls of `E`, and those before the writes (the order of the pseudocode, log 9). That DECRYPT's
second pass makes calls of `E` of its own is log 13. -/
def Obligations.AbortCodesOfMessageCommands : Prop :=
  ∀ (s : State) (i : Instr), i = .encrypt ∨ i = .decrypt → messageValid s → buffersPlaced s →
    (¬(admitted s .read (aadAddr s) (opA s) ∧ admitted s .read (inAddr s) (opM s)) →
      ∃ t, exec i s = .next t ∧ t.status = 0x00000093)
    ∧ (admitted s .read (aadAddr s) (opA s) → admitted s .read (inAddr s) (opM s) →
      cipherFails (macBlocks (opA s) (opM s) + 1 + nblocks (opM s)) s = true →
        ∃ t, exec i s = .next t ∧ t.status = 0x00000073)
    ∧ (firstPassDone s → i = .encrypt → ¬admitted s .write (outAddr s) (opM s) →
        ∃ t, exec i s = .next t ∧ t.status = 0x00000093)
    ∧ (firstPassDone s → i = .decrypt → tagsEqual s →
      (cipherFails (nblocks (opM s))
          (afterCalls (macBlocks (opA s) (opM s) + 1 + nblocks (opM s)) s) = true →
        ∃ t, exec i s = .next t ∧ t.status = 0x00000073)
      ∧ (cipherFails (nblocks (opM s))
          (afterCalls (macBlocks (opA s) (opM s) + 1 + nblocks (opM s)) s) = false →
        ¬admitted s .write (outAddr s) (opM s) →
        ∃ t, exec i s = .next t ∧ t.status = 0x00000093))
    ∧ (firstPassDone s → i = .decrypt → ¬tagsEqual s → ¬admitted s .write (outAddr s) (opM s) →
        ∃ t, exec i s = .next t ∧ t.status = 0x00000093)

/-- 45_context.md section 4: with equal tags DECRYPT completes with the plaintext in the buffer memory, and
changes nothing else; the oracle of `E` moves on by the calls of both passes (log 7). -/
def Obligations.DecryptReleasesThePlaintextOnAMatch : Prop :=
  ∀ s : State, messageValid s → buffersPlaced s → messageAdmitted s →
    cipherFails (macBlocks (opA s) (opM s) + 1 + nblocks (opM s)) s = false →
    cipherFails (nblocks (opM s))
      (afterCalls (macBlocks (opA s) (opM s) + 1 + nblocks (opM s)) s) = false →
    tagsEqual s →
      exec .decrypt s = .next
        { afterCalls (nblocks (opM s))
            (afterCalls (macBlocks (opA s) (opM s) + 1 + nblocks (opM s)) s) with
          mem := memWrite s.mem (outAddr s) (transformedInput s)
          status := 0x00000001 }

/-- R207: whenever DECRYPT ends with ERRCODE 6, the output range is all zeros, every other byte of the buffer
memory is as before, no register but STATUS changes, and the comparison was made and the tags differ; and it
does end so when the tags differ and no abort comes first. -/
def Obligations.DecryptZeroesItsOutputOnAMismatch : Prop :=
  (∀ s t : State, s.mem.wf = true → exec .decrypt s = .next t → (statusErrcode t.status).toNat = 6 →
    t = { s with mem := t.mem, status := t.status, oracle := t.oracle }
    ∧ (∀ a, inOutput s a → t.mem.read a = 0)
    ∧ (∀ a, ¬inOutput s a → t.mem.read a = s.mem.read a)
    ∧ firstPassDone s ∧ ¬tagsEqual s)
  ∧ ∀ s : State, messageValid s → buffersPlaced s → messageAdmitted s →
    cipherFails (macBlocks (opA s) (opM s) + 1 + nblocks (opM s)) s = false →
    ¬tagsEqual s →
      exec .decrypt s = .next
        { afterCalls (macBlocks (opA s) (opM s) + 1 + nblocks (opM s)) s with
          mem := memWrite s.mem (outAddr s) (zeros (opM s))
          status := 0x00000063 }

/-- 45_context.md section 4, 60_exceptions.md section 3: whatever way DECRYPT ends, aborts included, no register
but STATUS changes, no byte outside the output range changes, and a byte inside is as before, or 0, or the
plaintext's, the last only when the comparison was made and the tags are equal. -/
def Obligations.DecryptNeverReleasesUnverifiedPlaintext : Prop :=
  ∀ s t : State, s.mem.wf = true → exec .decrypt s = .next t →
    t = { s with mem := t.mem, status := t.status, oracle := t.oracle, freeSeed := t.freeSeed }
    ∧ (∀ a, ¬inOutput s a → t.mem.read a = s.mem.read a)
    ∧ ∀ a, inOutput s a →
      t.mem.read a = s.mem.read a ∨ t.mem.read a = 0
      ∨ (firstPassDone s ∧ tagsEqual s
        ∧ t.mem.read a = (transformedInput s).getD (a - outAddr s) 0)

/-- R210: decrypting what was encrypted gives the message back. -/
def Obligations.DecryptionUndoesEncryption : Prop :=
  ∀ (key nonce aad p : Bytes) (t : Nat), key.length ∈ [16, 24, 32] →
    7 ≤ nonce.length → nonce.length ≤ 13 → t ∈ [4, 6, 8, 10, 12, 14, 16] →
    aad.length < 2 ^ 64 → p.length < 2 ^ (8 * (15 - nonce.length)) →
      ccmDecrypt key nonce aad (ccmEncrypt key nonce aad p t).1 (ccmEncrypt key nonce aad p t).2 t
        = some p

/-- 45_context.md sections 3 to 5: ENCRYPT in place and then DECRYPT with the registers ENCRYPT left restores
every byte of the buffer memory and succeeds, where the platform's cipher cannot fail. -/
def Obligations.InPlaceRoundTripRestoresMemory : Prop :=
  ∀ s : State, s.mem.wf = true → messageValid s → inAddr s = outAddr s → buffersPlaced s →
    messageAdmitted s → s.platform.cipherCanFail = false →
      ∃ s₁ s₂, exec .encrypt s = .next s₁ ∧ exec .decrypt s₁ = .next s₂
        ∧ s₂.status = 0x00000001 ∧ s₂.tag = s₁.tag
        ∧ ∀ a, s₂.mem.read a = s.mem.read a

/-! ### What the host reads, and what the key can reach -/

/-- 00_scope.md section 7, 10_state.md sections 2, 4 and 5: a read of a register returns the value the register
holds, a read of a write-only register or of a reserved offset returns 0, and a read changes nothing. So what
the host reads at any offset does not depend on the held key or on the staged key. Where the value stands
after the read is the model's (log 3). -/
def Obligations.NoReadShowsTheKey : Prop :=
  (∀ (s : State) (r : Reg), readReg r s = shownValue s r)
  ∧ (∀ (s : State) (rest : List HostAction) (r : Reg), s.bus = .read 32 r.windowOffset :: rest →
      step s = .next { s with bus := rest, reply := some (shownValue s r) })
  ∧ ∀ (s : State) (rest : List HostAction) (off : BitVec 12) (key : KeyStage) (keyint : Bytes),
    off.toNat % 4 = 0 → s.bus = .read 32 off :: rest →
      ∃ v : Word, (∀ r, regAt off = some r → v = shownValue s r) ∧ (regAt off = none → v = 0)
        ∧ step s = .next { s with bus := rest, reply := some v }
        ∧ step { s with key := key, keyint := keyint }
          = .next { s with key := key, keyint := keyint, bus := rest, reply := some v }

/-- 60_exceptions.md section 5, 10_state.md sections 4 and 5: two states that differ at most in the held and
the staged key still do after any action that starts no command that calls `E`: what the host sees tells
it nothing of the key. -/
def Obligations.KeylessActionsRevealNothingOfTheKey : Prop :=
  ∀ s s' : State, sameButKey s s' → (∀ act ∈ s.bus.head?, keyless act) →
    sameOutcomeButKey (step s) (step s')

/-- 10_state.md section 6: ENCRYPT and DECRYPT neither read nor write DATA, B0, CTR0, CTRV and the key
staging. After an abort the two results are compared for the same draw of the free values (log 8). -/
def Obligations.MessageCommandsIgnoreTheBlockRegisters : Prop :=
  ∀ (s : State) (i : Instr) (d b c : Quad) (v : Pair) (k : KeyStage),
    i = .encrypt ∨ i = .decrypt →
      exec i { s with data := d, b0 := b, ctr0 := c, ctrv := v, key := k } =
        match exec i s with
        | .next t => .next { t with data := d, b0 := b, ctr0 := c, ctrv := v, key := k }
        | .fault f => .fault f
        | .refused r => .refused r

/-! ### Operands, buffers, platform -/

/-- 30_encoding.md section 2, 10_state.md section 3: each operand is its field of its register, as the host reads
that register, and CTRL's three fields hold what the host writes to them. -/
def Obligations.OperandsComeFromTheirFields : Prop :=
  (∀ s : State,
    opT s = (readReg .ctrl s).toNat % 2 ^ 5
    ∧ opN s = (readReg .ctrl s).toNat / 2 ^ 8 % 2 ^ 4
    ∧ opK s = (readReg .ctrl s).toNat / 2 ^ 16 % 2 ^ 6
    ∧ opL s = 15 - opN s
    ∧ ((opNonce s).length = opN s ∧ ∀ i j : Fin 4, 4 * i.val + j.val < opN s →
      (opNonce s).getD (4 * i.val + j.val) 0 = (readReg (.nonce i) s).extractLsb' (8 * j.val) 8)
    ∧ ((suppliedTag s).length = min (opT s) 16 ∧ ∀ i j : Fin 4, 4 * i.val + j.val < opT s →
      (suppliedTag s).getD (4 * i.val + j.val) 0 = (readReg (.tag i) s).extractLsb' (8 * j.val) 8)
    ∧ ((dataBlock s).length = 16 ∧ ∀ i j : Fin 4,
      (dataBlock s).getD (4 * i.val + j.val) 0 = (readReg (.data i) s).extractLsb' (8 * j.val) 8)
    ∧ ((opKey s).length = min (opK s) 32 ∧ ∀ (i : Fin 8) (j : Fin 4), 4 * i.val + j.val < opK s →
      (opKey s).getD (4 * i.val + j.val) 0 = (s.key.get i).extractLsb' (8 * j.val) 8)
    ∧ opA s = (readReg (.alen .lo) s).toNat + 2 ^ 32 * (readReg (.alen .hi) s).toNat
    ∧ opM s = (readReg (.mlen .lo) s).toNat + 2 ^ 32 * (readReg (.mlen .hi) s).toNat
    ∧ opI s = (readReg (.ctrv .lo) s).toNat + 2 ^ 32 * (readReg (.ctrv .hi) s).toNat
    ∧ aadAddr s = (readReg (.aadaddr .lo) s).toNat + 2 ^ 32 * (readReg (.aadaddr .hi) s).toNat
    ∧ inAddr s = (readReg (.inaddr .lo) s).toNat + 2 ^ 32 * (readReg (.inaddr .hi) s).toNat
    ∧ outAddr s = (readReg (.outaddr .lo) s).toNat + 2 ^ 32 * (readReg (.outaddr .hi) s).toNat)
    ∧ ∀ (s : State) (rest : List HostAction) (t n k : Nat), t < 2 ^ 5 → n < 2 ^ 4 → k < 2 ^ 6 →
      s.bus = .write 32 0x008 (BitVec.ofNat 32 (t + 2 ^ 8 * n + 2 ^ 16 * k)) :: rest →
        ∃ u, step s = .next u ∧ opT u = t ∧ opN u = n ∧ opK u = k

/-- 20_memory.md section 1: a string lies in the buffer memory in address order, for the engine's reads and for
its writes, and a write leaves every other byte and the memory's form as they are. -/
def Obligations.BuffersLieInAddressOrder : Prop :=
  (∀ (m : Memory) (addr n : Nat), (memRead m addr n).length = n
      ∧ ∀ j < n, (memRead m addr n).getD j 0 = m.read (addr + j))
    ∧ ∀ (m : Memory) (addr : Nat) (b : Bytes), m.wf = true → addr + b.length ≤ 2 ^ 64 →
      (memWrite m addr b).wf = true
      ∧ (∀ j < b.length, (memWrite m addr b).read (addr + j) = b.getD j 0)
      ∧ (∀ a, (a < addr ∨ addr + b.length ≤ a) → (memWrite m addr b).read a = m.read a)
      ∧ memRead (memWrite m addr b) addr b.length = b

/-- 45_context.md sections 2 to 4: ENCRYPT computes `CcmEncrypt` and DECRYPT computes `CcmDecrypt` of their
operands and buffers, where the platform admits the buffers and its cipher cannot fail. -/
def Obligations.MessageCommandsComputeCcm : Prop :=
  ∀ s : State, messageValid s → buffersPlaced s → messageAdmitted s →
    s.platform.cipherCanFail = false →
      exec .encrypt s =
        (match ccmEncrypt s.keyint (opNonce s) (memRead s.mem (aadAddr s) (opA s))
            (memRead s.mem (inAddr s) (opM s)) (opT s) with
        | (c, tag) => .next { s with
            mem := memWrite s.mem (outAddr s) c
            tag := Quad.ofBytes (tag ++ zeros (16 - opT s))
            status := 0x00000001 })
      ∧ exec .decrypt s =
        (match ccmDecrypt s.keyint (opNonce s) (memRead s.mem (aadAddr s) (opA s))
            (memRead s.mem (inAddr s) (opM s)) (msb (opT s) s.tag.bytes) (opT s) with
        | some p => .next { s with mem := memWrite s.mem (outAddr s) p, status := 0x00000001 }
        | none => .next { s with
            mem := memWrite s.mem (outAddr s) (zeros (opM s)), status := 0x00000063 })

/-- 20_memory.md section 2, 60_exceptions.md section 3: what the platform's parameters and the oracle mean: a byte
is refused exactly when a listed span holds it; of the next `n` calls of `E` one fails exactly when the
cipher can fail and the oracle lists a failure among them, and the calls move the oracle on. The form of
these parameters is the model's (log 5, 6, 7). -/
def Obligations.PlatformParametersMeanWhatTheyList : Prop :=
  (∀ (p : Platform) (a : Nat),
      (memAdmit p .read a = false ↔ ∃ sp ∈ p.refusesRead, sp.base ≤ a ∧ a < sp.base + sp.size)
      ∧ (memAdmit p .write a = false ↔ ∃ sp ∈ p.refusesWrite, sp.base ≤ a ∧ a < sp.base + sp.size))
    ∧ ∀ (s : State) (n : Nat),
      (s.platform.cipherCanFail = false → cipherFails n s = false ∧ afterCalls n s = s)
      ∧ (s.platform.cipherCanFail = true →
        (s.oracle = [] → cipherFails n s = false ∧ afterCalls n s = s)
        ∧ ∀ (good : Nat) (rest : List Nat), s.oracle = good :: rest →
          (n ≤ good → cipherFails n s = false ∧ afterCalls n s = { s with oracle := (good - n) :: rest })
          ∧ (good < n → cipherFails n s = true ∧ afterCalls n s = { s with oracle := rest }))
end

