-- ==== Sys2Proof/Laws/Bytes.lean ====
section
/-!
SUPPORT. Lengths, packing and big-endian encodings: one small lemma per fact.
-/
namespace Sys2Proof.Machine

@[simp] theorem zeros_length (k : Nat) : (zeros k).length = k := by simp [zeros]

@[simp] theorem be_length (v k : Nat) : (be v k).length = k := by
  induction k with
  | zero => rfl
  | succ k ih => simp [be, ih]

@[simp] theorem xorBytes_length (a b : Bytes) : (xorBytes a b).length = min a.length b.length := by
  simp [xorBytes]

@[simp] theorem msb_length (t : Nat) (s : Bytes) : (msb t s).length = min t s.length := by
  simp [msb]

theorem pad16_length (s : Bytes) : (pad16 s).length = 16 * nblocks s.length := by
  simp [pad16, nblocks]; omega

theorem blockOf_length (s : Bytes) (j : Nat) : (blockOf s j).length = min 16 (s.length - 16 * j) := by
  simp [blockOf]

theorem beValue_foldl (s : Bytes) (acc : Nat) :
    s.foldl (fun acc b => 256 * acc + b.toNat) acc = acc * 256 ^ s.length + beValue s := by
  induction s generalizing acc with
  | nil => simp [beValue]
  | cons b rest ih =>
    simp only [List.foldl_cons, List.length_cons, beValue]
    rw [ih, ih (256 * 0 + b.toNat)]
    ring

theorem beValue_cons (b : Byte) (s : Bytes) : beValue (b :: s) = b.toNat * 256 ^ s.length + beValue s := by
  rw [beValue, List.foldl_cons, beValue_foldl]; simp

/-- `BE(v, k)` stands for `v` where it is defined (00_scope.md R11). -/
theorem beValue_be (v k : Nat) : beValue (be v k) = v % 2 ^ (8 * k) := by
  induction k with
  | zero => simp [be, beValue, Nat.mod_one]
  | succ k ih =>
    rw [be, beValue_cons, ih, be_length, BitVec.toNat_ofNat]
    have h : (256 : Nat) ^ k = 2 ^ (8 * k) := by rw [pow_mul]; norm_num
    rw [h, show 8 * (k + 1) = 8 * k + 8 by ring, pow_add, Nat.mod_mul]
    ring

theorem be_injective {v w k : Nat} (hv : v < 2 ^ (8 * k)) (hw : w < 2 ^ (8 * k)) (h : be v k = be w k) :
    v = w := by
  have := congrArg beValue h
  rwa [beValue_be, beValue_be, Nat.mod_eq_of_lt hv, Nat.mod_eq_of_lt hw] at this

@[simp] theorem wordBytes_length (w : Word) : (wordBytes w).length = 4 := rfl

@[simp] theorem quad_bytes_length (q : Quad) : q.bytes.length = 16 := rfl

@[simp] theorem keyStage_bytes_length (k : KeyStage) : k.bytes.length = 32 := rfl

/-- The packing of four bytes in a word and its unpacking (10_state.md R23). -/
theorem wordBytes_append (b0 b1 b2 b3 : Byte) :
    wordBytes (b3 ++ b2 ++ b1 ++ b0 : Word) = [b0, b1, b2, b3] := by
  simp only [wordBytes, wordByte, List.cons.injEq, and_true]
  refine ⟨?_, ?_, ?_, ?_⟩ <;>
    · ext i hi
      simp only [BitVec.getElem_extractLsb', BitVec.getLsbD_append]
      split <;> try omega
      all_goals (try split) <;> (try split) <;> (try omega)
      all_goals simp only [← BitVec.getLsbD_eq_getElem]; congr 1; try omega

/-- Writing 16 bytes to a group of registers and reading them back (10_state.md R23). -/
theorem quad_bytes_ofBytes {s : Bytes} (h : s.length = 16) : (Quad.ofBytes s).bytes = s := by
  simp only [Quad.bytes, Quad.ofBytes, wordAt, wordBytes_append]
  apply List.ext_getElem (by simp [h])
  intro i hi _
  have hi' : i < 16 := by simpa using hi
  interval_cases i <;> simp [List.getD_eq_getElem?_getD, h]

end Sys2Proof.Machine
end

