-- ==== Sys2Proof/Laws/Memory.lean ====
section
/-!
SUPPORT. The buffer memory: every operation keeps its canonical form, a read after a write gives the
value written, and a write leaves every other byte alone.
-/
namespace Sys2Proof.Machine

theorem Memory.wfFrom_mono {m : Memory} {lo lo' : Nat} (h : lo' ≤ lo) (hm : Memory.wfFrom lo m) :
    Memory.wfFrom lo' m := by
  cases m with
  | nil => rfl
  | cons c rest =>
    obtain ⟨a, b⟩ := c
    simp only [Memory.wfFrom, Bool.and_eq_true, decide_eq_true_eq] at hm ⊢
    exact ⟨⟨⟨by omega, hm.1.1.2⟩, hm.1.2⟩, hm.2⟩

theorem Memory.read_below {m : Memory} {lo x : Nat} (hm : Memory.wfFrom lo m) (hx : x < lo) :
    m.read x = Memory.unlisted := by
  induction m generalizing lo with
  | nil => rfl
  | cons c rest ih =>
    obtain ⟨a, b⟩ := c
    simp only [Memory.wfFrom, Bool.and_eq_true, decide_eq_true_eq] at hm
    rw [Memory.read, if_neg (by omega)]
    exact ih hm.2 (by omega)

theorem Memory.write_wfFrom {m : Memory} {lo x : Nat} {v : Byte} (hm : Memory.wfFrom lo m) (hlo : lo ≤ x)
    (hx : x < 2 ^ 64) : Memory.wfFrom lo (m.write x v) := by
  induction m generalizing lo with
  | nil =>
    rw [Memory.write]
    split
    · rfl
    · simp only [Memory.wfFrom, Bool.and_eq_true, decide_eq_true_eq, bne_iff_ne]
      exact ⟨⟨⟨hlo, hx⟩, by assumption⟩, trivial⟩
  | cons c rest ih =>
    obtain ⟨a, b⟩ := c
    have hm' := hm
    simp only [Memory.wfFrom, Bool.and_eq_true, decide_eq_true_eq] at hm
    obtain ⟨⟨⟨h1, h2⟩, h3⟩, h4⟩ := hm
    rw [Memory.write]
    split
    · split
      · exact hm'
      · simp only [Memory.wfFrom, Bool.and_eq_true, decide_eq_true_eq, bne_iff_ne]
        exact ⟨⟨⟨hlo, hx⟩, by assumption⟩, ⟨⟨by omega, h2⟩, by simpa using h3⟩, h4⟩
    · split
      · split
        · exact Memory.wfFrom_mono (by omega) h4
        · simp only [Memory.wfFrom, Bool.and_eq_true, decide_eq_true_eq, bne_iff_ne]
          exact ⟨⟨⟨hlo, hx⟩, by assumption⟩, by subst_vars; exact h4⟩
      · simp only [Memory.wfFrom, Bool.and_eq_true, decide_eq_true_eq]
        exact ⟨⟨⟨h1, h2⟩, h3⟩, ih h4 (by omega)⟩

/-- A write inside the address space keeps the canonical form. -/
theorem Memory.write_wf {m : Memory} {x : Nat} {v : Byte} (hm : m.wf) (hx : x < 2 ^ 64) : (m.write x v).wf :=
  Memory.write_wfFrom hm (Nat.zero_le x) hx

theorem Memory.read_write_from {m : Memory} {lo x : Nat} {v : Byte} (hm : Memory.wfFrom lo m) (y : Nat) :
    (m.write x v).read y = if y = x then v else m.read y := by
  induction m generalizing lo with
  | nil =>
    rw [Memory.write]
    split <;> simp [Memory.read, eq_comm, *]
  | cons c rest ih =>
    obtain ⟨a, b⟩ := c
    simp only [Memory.wfFrom, Bool.and_eq_true, decide_eq_true_eq] at hm
    obtain ⟨_, h4⟩ := hm
    rw [Memory.write]
    by_cases hxa : x < a
    · rw [if_pos hxa]
      by_cases hv : v = Memory.unlisted
      · rw [if_pos hv]
        by_cases hy : y = x
        · subst hy
          rw [if_pos rfl, hv, Memory.read, if_neg (by omega), Memory.read_below h4 (by omega)]
        · rw [if_neg hy]
      · rw [if_neg hv, Memory.read]
        by_cases hy : y = x
        · rw [if_pos hy.symm, if_pos hy]
        · rw [if_neg (Ne.symm hy), if_neg hy]
    · rw [if_neg hxa]
      by_cases hx : x = a
      · rw [if_pos hx]
        subst hx
        by_cases hv : v = Memory.unlisted
        · rw [if_pos hv]
          by_cases hy : y = x
          · subst hy; rw [if_pos rfl, hv, Memory.read_below h4 (by omega)]
          · rw [if_neg hy, Memory.read, if_neg (Ne.symm hy)]
        · rw [if_neg hv, Memory.read, Memory.read]
          by_cases hy : y = x
          · rw [if_pos hy.symm, if_pos hy]
          · rw [if_neg (Ne.symm hy), if_neg hy, if_neg (Ne.symm hy)]
      · rw [if_neg hx, Memory.read, Memory.read, ih h4]
        by_cases ha : a = y
        · rw [if_pos ha, if_pos ha, if_neg (by omega)]
        · rw [if_neg ha, if_neg ha]

/-- A read after a write: the value written at its address, every other byte as before. -/
theorem Memory.read_write {m : Memory} (hm : m.wf) (x : Nat) (v : Byte) (y : Nat) :
    (m.write x v).read y = if y = x then v else m.read y :=
  Memory.read_write_from hm y

/-- `MemWrite` inside the address space keeps the canonical form. -/
theorem memWrite_wf {m : Memory} {addr : Nat} {s : Bytes} (hm : m.wf) (h : addr + s.length ≤ 2 ^ 64) :
    (memWrite m addr s).wf := by
  induction s generalizing m addr with
  | nil => exact hm
  | cons b rest ih =>
    simp only [List.length_cons] at h
    exact ih (Memory.write_wf hm (by omega)) (by omega)

/-- `MemWrite` gives byte `j` of the string at `addr + j`, and leaves every other byte as it was. -/
theorem read_memWrite {m : Memory} {addr : Nat} {s : Bytes} (hm : m.wf) (h : addr + s.length ≤ 2 ^ 64)
    (y : Nat) :
    (memWrite m addr s).read y =
      if addr ≤ y ∧ y < addr + s.length then s.getD (y - addr) 0 else m.read y := by
  induction s generalizing m addr with
  | nil => simp [memWrite]
  | cons b rest ih =>
    simp only [List.length_cons] at h
    rw [memWrite, ih (Memory.write_wf hm (by omega)) (by omega), Memory.read_write hm]
    simp only [List.length_cons]
    by_cases h1 : y = addr
    · subst h1
      rw [if_neg (by omega), if_pos rfl, if_pos (by omega)]
      simp
    · by_cases h2 : addr + 1 ≤ y ∧ y < addr + 1 + rest.length
      · rw [if_pos h2, if_pos (by omega)]
        obtain ⟨k, hk⟩ : ∃ k, y - addr = k + 1 := ⟨y - addr - 1, by omega⟩
        rw [hk, List.getD_cons_succ]
        congr 1
        omega
      · rw [if_neg h2, if_neg h1, if_neg (by omega)]

@[simp] theorem memRead_length (m : Memory) (addr n : Nat) : (memRead m addr n).length = n := by
  simp [memRead]

theorem memRead_getElem (m : Memory) (addr n j : Nat) (h : j < (memRead m addr n).length) :
    (memRead m addr n)[j] = m.read (addr + j) := by
  simp [memRead]

/-- `MemRead` of what `MemWrite` just wrote. -/
theorem memRead_memWrite_same {m : Memory} {addr : Nat} {s : Bytes} (hm : m.wf)
    (h : addr + s.length ≤ 2 ^ 64) : memRead (memWrite m addr s) addr s.length = s := by
  apply List.ext_getElem (by simp)
  intro j hj hj'
  rw [memRead_getElem, read_memWrite hm h, if_pos ⟨by omega, by omega⟩]
  simp [List.getD_eq_getElem?_getD, hj']

/-- `MemRead` of a range that `MemWrite` did not touch. -/
theorem memRead_memWrite_disjoint {m : Memory} {addr addr' n : Nat} {s : Bytes} (hm : m.wf)
    (h : addr + s.length ≤ 2 ^ 64) (hd : addr + s.length ≤ addr' ∨ addr' + n ≤ addr) :
    memRead (memWrite m addr s) addr' n = memRead m addr' n := by
  apply List.ext_getElem (by simp)
  intro j hj _
  simp only [memRead_length] at hj
  rw [memRead_getElem, memRead_getElem, read_memWrite hm h, if_neg (by omega)]

end Sys2Proof.Machine
end

