-- ==== Sys2Proof/Laws/State.lean ====
section
/-!
SUPPORT. What each shared update of the state does to each field: one lemma per field and update.
-/
namespace Sys2Proof.Machine

/-! ### `complete` -/

@[simp] theorem complete_status (s : State) : (complete s).status = statusValue s.ctx none := rfl
@[simp] theorem complete_ctrl (s : State) : (complete s).ctrl = s.ctrl := rfl
@[simp] theorem complete_key (s : State) : (complete s).key = s.key := rfl
@[simp] theorem complete_nonce (s : State) : (complete s).nonce = s.nonce := rfl
@[simp] theorem complete_alen (s : State) : (complete s).alen = s.alen := rfl
@[simp] theorem complete_mlen (s : State) : (complete s).mlen = s.mlen := rfl
@[simp] theorem complete_aadaddr (s : State) : (complete s).aadaddr = s.aadaddr := rfl
@[simp] theorem complete_inaddr (s : State) : (complete s).inaddr = s.inaddr := rfl
@[simp] theorem complete_outaddr (s : State) : (complete s).outaddr = s.outaddr := rfl
@[simp] theorem complete_ctrv (s : State) : (complete s).ctrv = s.ctrv := rfl
@[simp] theorem complete_tag (s : State) : (complete s).tag = s.tag := rfl
@[simp] theorem complete_data (s : State) : (complete s).data = s.data := rfl
@[simp] theorem complete_b0 (s : State) : (complete s).b0 = s.b0 := rfl
@[simp] theorem complete_ctr0 (s : State) : (complete s).ctr0 = s.ctr0 := rfl
@[simp] theorem complete_ctx (s : State) : (complete s).ctx = s.ctx := rfl
@[simp] theorem complete_keyint (s : State) : (complete s).keyint = s.keyint := rfl
@[simp] theorem complete_mem (s : State) : (complete s).mem = s.mem := rfl
@[simp] theorem complete_platform (s : State) : (complete s).platform = s.platform := rfl
@[simp] theorem complete_oracle (s : State) : (complete s).oracle = s.oracle := rfl
@[simp] theorem complete_freeSeed (s : State) : (complete s).freeSeed = s.freeSeed := rfl
@[simp] theorem complete_bus (s : State) : (complete s).bus = s.bus := rfl
@[simp] theorem complete_reply (s : State) : (complete s).reply = s.reply := rfl

/-! ### `raise` -/

@[simp] theorem raise_status (c : ErrCode) (s : State) : (raise c s).status = statusValue s.ctx (some c) := rfl
@[simp] theorem raise_ctrl (c : ErrCode) (s : State) : (raise c s).ctrl = s.ctrl := rfl
@[simp] theorem raise_key (c : ErrCode) (s : State) : (raise c s).key = s.key := rfl
@[simp] theorem raise_nonce (c : ErrCode) (s : State) : (raise c s).nonce = s.nonce := rfl
@[simp] theorem raise_alen (c : ErrCode) (s : State) : (raise c s).alen = s.alen := rfl
@[simp] theorem raise_mlen (c : ErrCode) (s : State) : (raise c s).mlen = s.mlen := rfl
@[simp] theorem raise_aadaddr (c : ErrCode) (s : State) : (raise c s).aadaddr = s.aadaddr := rfl
@[simp] theorem raise_inaddr (c : ErrCode) (s : State) : (raise c s).inaddr = s.inaddr := rfl
@[simp] theorem raise_outaddr (c : ErrCode) (s : State) : (raise c s).outaddr = s.outaddr := rfl
@[simp] theorem raise_ctrv (c : ErrCode) (s : State) : (raise c s).ctrv = s.ctrv := rfl
@[simp] theorem raise_tag (c : ErrCode) (s : State) : (raise c s).tag = s.tag := rfl
@[simp] theorem raise_data (c : ErrCode) (s : State) : (raise c s).data = s.data := rfl
@[simp] theorem raise_b0 (c : ErrCode) (s : State) : (raise c s).b0 = s.b0 := rfl
@[simp] theorem raise_ctr0 (c : ErrCode) (s : State) : (raise c s).ctr0 = s.ctr0 := rfl
@[simp] theorem raise_ctx (c : ErrCode) (s : State) : (raise c s).ctx = s.ctx := rfl
@[simp] theorem raise_keyint (c : ErrCode) (s : State) : (raise c s).keyint = s.keyint := rfl
@[simp] theorem raise_mem (c : ErrCode) (s : State) : (raise c s).mem = s.mem := rfl
@[simp] theorem raise_platform (c : ErrCode) (s : State) : (raise c s).platform = s.platform := rfl
@[simp] theorem raise_oracle (c : ErrCode) (s : State) : (raise c s).oracle = s.oracle := rfl
@[simp] theorem raise_freeSeed (c : ErrCode) (s : State) : (raise c s).freeSeed = s.freeSeed := rfl
@[simp] theorem raise_bus (c : ErrCode) (s : State) : (raise c s).bus = s.bus := rfl
@[simp] theorem raise_reply (c : ErrCode) (s : State) : (raise c s).reply = s.reply := rfl

/-! ### `abort` -/

@[simp] theorem abort_status (c : ErrCode) (s : State) : (abort c s).status = statusValue s.ctx (some c) := rfl
@[simp] theorem abort_ctrl (c : ErrCode) (s : State) : (abort c s).ctrl = s.ctrl := rfl
@[simp] theorem abort_key (c : ErrCode) (s : State) : (abort c s).key = s.key := rfl
@[simp] theorem abort_nonce (c : ErrCode) (s : State) : (abort c s).nonce = s.nonce := rfl
@[simp] theorem abort_alen (c : ErrCode) (s : State) : (abort c s).alen = s.alen := rfl
@[simp] theorem abort_mlen (c : ErrCode) (s : State) : (abort c s).mlen = s.mlen := rfl
@[simp] theorem abort_aadaddr (c : ErrCode) (s : State) : (abort c s).aadaddr = s.aadaddr := rfl
@[simp] theorem abort_inaddr (c : ErrCode) (s : State) : (abort c s).inaddr = s.inaddr := rfl
@[simp] theorem abort_outaddr (c : ErrCode) (s : State) : (abort c s).outaddr = s.outaddr := rfl
@[simp] theorem abort_ctrv (c : ErrCode) (s : State) : (abort c s).ctrv = s.ctrv := rfl
@[simp] theorem abort_tag (c : ErrCode) (s : State) : (abort c s).tag = s.tag := rfl
@[simp] theorem abort_data (c : ErrCode) (s : State) : (abort c s).data = s.data := rfl
@[simp] theorem abort_b0 (c : ErrCode) (s : State) : (abort c s).b0 = s.b0 := rfl
@[simp] theorem abort_ctr0 (c : ErrCode) (s : State) : (abort c s).ctr0 = s.ctr0 := rfl
@[simp] theorem abort_ctx (c : ErrCode) (s : State) : (abort c s).ctx = s.ctx := rfl
@[simp] theorem abort_keyint (c : ErrCode) (s : State) : (abort c s).keyint = s.keyint := rfl
@[simp] theorem abort_mem (c : ErrCode) (s : State) : (abort c s).mem = s.mem := rfl
@[simp] theorem abort_platform (c : ErrCode) (s : State) : (abort c s).platform = s.platform := rfl
@[simp] theorem abort_oracle (c : ErrCode) (s : State) : (abort c s).oracle = s.oracle := rfl
@[simp] theorem abort_freeSeed (c : ErrCode) (s : State) : (abort c s).freeSeed = s.freeSeed + 1 := rfl
@[simp] theorem abort_bus (c : ErrCode) (s : State) : (abort c s).bus = s.bus := rfl
@[simp] theorem abort_reply (c : ErrCode) (s : State) : (abort c s).reply = s.reply := rfl

/-! ### `clearStaging` -/

@[simp] theorem clearStaging_status (s : State) : (clearStaging s).status = s.status := rfl
@[simp] theorem clearStaging_ctrl (s : State) : (clearStaging s).ctrl = s.ctrl := rfl
@[simp] theorem clearStaging_key (s : State) : (clearStaging s).key = KeyStage.zero := rfl
@[simp] theorem clearStaging_nonce (s : State) : (clearStaging s).nonce = s.nonce := rfl
@[simp] theorem clearStaging_alen (s : State) : (clearStaging s).alen = s.alen := rfl
@[simp] theorem clearStaging_mlen (s : State) : (clearStaging s).mlen = s.mlen := rfl
@[simp] theorem clearStaging_aadaddr (s : State) : (clearStaging s).aadaddr = s.aadaddr := rfl
@[simp] theorem clearStaging_inaddr (s : State) : (clearStaging s).inaddr = s.inaddr := rfl
@[simp] theorem clearStaging_outaddr (s : State) : (clearStaging s).outaddr = s.outaddr := rfl
@[simp] theorem clearStaging_ctrv (s : State) : (clearStaging s).ctrv = s.ctrv := rfl
@[simp] theorem clearStaging_tag (s : State) : (clearStaging s).tag = s.tag := rfl
@[simp] theorem clearStaging_data (s : State) : (clearStaging s).data = s.data := rfl
@[simp] theorem clearStaging_b0 (s : State) : (clearStaging s).b0 = s.b0 := rfl
@[simp] theorem clearStaging_ctr0 (s : State) : (clearStaging s).ctr0 = s.ctr0 := rfl
@[simp] theorem clearStaging_ctx (s : State) : (clearStaging s).ctx = s.ctx := rfl
@[simp] theorem clearStaging_keyint (s : State) : (clearStaging s).keyint = s.keyint := rfl
@[simp] theorem clearStaging_mem (s : State) : (clearStaging s).mem = s.mem := rfl
@[simp] theorem clearStaging_platform (s : State) : (clearStaging s).platform = s.platform := rfl
@[simp] theorem clearStaging_oracle (s : State) : (clearStaging s).oracle = s.oracle := rfl
@[simp] theorem clearStaging_freeSeed (s : State) : (clearStaging s).freeSeed = s.freeSeed := rfl
@[simp] theorem clearStaging_bus (s : State) : (clearStaging s).bus = s.bus := rfl
@[simp] theorem clearStaging_reply (s : State) : (clearStaging s).reply = s.reply := rfl

/-! ### `platformReset` -/

@[simp] theorem platformReset_status (s : State) : (platformReset s).status = State.reset.status := rfl
@[simp] theorem platformReset_ctrl (s : State) : (platformReset s).ctrl = State.reset.ctrl := rfl
@[simp] theorem platformReset_key (s : State) : (platformReset s).key = State.reset.key := rfl
@[simp] theorem platformReset_nonce (s : State) : (platformReset s).nonce = State.reset.nonce := rfl
@[simp] theorem platformReset_alen (s : State) : (platformReset s).alen = State.reset.alen := rfl
@[simp] theorem platformReset_mlen (s : State) : (platformReset s).mlen = State.reset.mlen := rfl
@[simp] theorem platformReset_aadaddr (s : State) : (platformReset s).aadaddr = State.reset.aadaddr := rfl
@[simp] theorem platformReset_inaddr (s : State) : (platformReset s).inaddr = State.reset.inaddr := rfl
@[simp] theorem platformReset_outaddr (s : State) : (platformReset s).outaddr = State.reset.outaddr := rfl
@[simp] theorem platformReset_ctrv (s : State) : (platformReset s).ctrv = State.reset.ctrv := rfl
@[simp] theorem platformReset_tag (s : State) : (platformReset s).tag = State.reset.tag := rfl
@[simp] theorem platformReset_data (s : State) : (platformReset s).data = State.reset.data := rfl
@[simp] theorem platformReset_b0 (s : State) : (platformReset s).b0 = State.reset.b0 := rfl
@[simp] theorem platformReset_ctr0 (s : State) : (platformReset s).ctr0 = State.reset.ctr0 := rfl
@[simp] theorem platformReset_ctx (s : State) : (platformReset s).ctx = State.reset.ctx := rfl
@[simp] theorem platformReset_keyint (s : State) : (platformReset s).keyint = State.reset.keyint := rfl
@[simp] theorem platformReset_mem (s : State) : (platformReset s).mem = s.mem := rfl
@[simp] theorem platformReset_platform (s : State) : (platformReset s).platform = s.platform := rfl
@[simp] theorem platformReset_oracle (s : State) : (platformReset s).oracle = s.oracle := rfl
@[simp] theorem platformReset_freeSeed (s : State) : (platformReset s).freeSeed = s.freeSeed := rfl
@[simp] theorem platformReset_bus (s : State) : (platformReset s).bus = s.bus := rfl
@[simp] theorem platformReset_reply (s : State) : (platformReset s).reply = State.reset.reply := rfl

/-! ### `afterCalls` -/

@[simp] theorem afterCalls_status (calls : Nat) (s : State) : (afterCalls calls s).status = s.status := by
  unfold afterCalls; split <;> rfl
@[simp] theorem afterCalls_ctrl (calls : Nat) (s : State) : (afterCalls calls s).ctrl = s.ctrl := by
  unfold afterCalls; split <;> rfl
@[simp] theorem afterCalls_key (calls : Nat) (s : State) : (afterCalls calls s).key = s.key := by
  unfold afterCalls; split <;> rfl
@[simp] theorem afterCalls_nonce (calls : Nat) (s : State) : (afterCalls calls s).nonce = s.nonce := by
  unfold afterCalls; split <;> rfl
@[simp] theorem afterCalls_alen (calls : Nat) (s : State) : (afterCalls calls s).alen = s.alen := by
  unfold afterCalls; split <;> rfl
@[simp] theorem afterCalls_mlen (calls : Nat) (s : State) : (afterCalls calls s).mlen = s.mlen := by
  unfold afterCalls; split <;> rfl
@[simp] theorem afterCalls_aadaddr (calls : Nat) (s : State) : (afterCalls calls s).aadaddr = s.aadaddr := by
  unfold afterCalls; split <;> rfl
@[simp] theorem afterCalls_inaddr (calls : Nat) (s : State) : (afterCalls calls s).inaddr = s.inaddr := by
  unfold afterCalls; split <;> rfl
@[simp] theorem afterCalls_outaddr (calls : Nat) (s : State) : (afterCalls calls s).outaddr = s.outaddr := by
  unfold afterCalls; split <;> rfl
@[simp] theorem afterCalls_ctrv (calls : Nat) (s : State) : (afterCalls calls s).ctrv = s.ctrv := by
  unfold afterCalls; split <;> rfl
@[simp] theorem afterCalls_tag (calls : Nat) (s : State) : (afterCalls calls s).tag = s.tag := by
  unfold afterCalls; split <;> rfl
@[simp] theorem afterCalls_data (calls : Nat) (s : State) : (afterCalls calls s).data = s.data := by
  unfold afterCalls; split <;> rfl
@[simp] theorem afterCalls_b0 (calls : Nat) (s : State) : (afterCalls calls s).b0 = s.b0 := by
  unfold afterCalls; split <;> rfl
@[simp] theorem afterCalls_ctr0 (calls : Nat) (s : State) : (afterCalls calls s).ctr0 = s.ctr0 := by
  unfold afterCalls; split <;> rfl
@[simp] theorem afterCalls_ctx (calls : Nat) (s : State) : (afterCalls calls s).ctx = s.ctx := by
  unfold afterCalls; split <;> rfl
@[simp] theorem afterCalls_keyint (calls : Nat) (s : State) : (afterCalls calls s).keyint = s.keyint := by
  unfold afterCalls; split <;> rfl
@[simp] theorem afterCalls_mem (calls : Nat) (s : State) : (afterCalls calls s).mem = s.mem := by
  unfold afterCalls; split <;> rfl
@[simp] theorem afterCalls_platform (calls : Nat) (s : State) : (afterCalls calls s).platform = s.platform := by
  unfold afterCalls; split <;> rfl
@[simp] theorem afterCalls_oracle (calls : Nat) (s : State) : (afterCalls calls s).oracle = (if s.platform.cipherCanFail then (consultOracle calls s.oracle).2 else s.oracle) := by
  unfold afterCalls; split <;> rfl
@[simp] theorem afterCalls_freeSeed (calls : Nat) (s : State) : (afterCalls calls s).freeSeed = s.freeSeed := by
  unfold afterCalls; split <;> rfl
@[simp] theorem afterCalls_bus (calls : Nat) (s : State) : (afterCalls calls s).bus = s.bus := by
  unfold afterCalls; split <;> rfl
@[simp] theorem afterCalls_reply (calls : Nat) (s : State) : (afterCalls calls s).reply = s.reply := by
  unfold afterCalls; split <;> rfl

/-! ### The reset values (10_state.md R22) -/

@[simp] theorem reset_status : State.reset.status = 0x00000000 := rfl
@[simp] theorem reset_ctrl : State.reset.ctrl = 0x00000010 := rfl
@[simp] theorem reset_key : State.reset.key = KeyStage.zero := rfl
@[simp] theorem reset_nonce : State.reset.nonce = Quad.zero := rfl
@[simp] theorem reset_alen : State.reset.alen = Pair.zero := rfl
@[simp] theorem reset_mlen : State.reset.mlen = Pair.zero := rfl
@[simp] theorem reset_aadaddr : State.reset.aadaddr = Pair.zero := rfl
@[simp] theorem reset_inaddr : State.reset.inaddr = Pair.zero := rfl
@[simp] theorem reset_outaddr : State.reset.outaddr = Pair.zero := rfl
@[simp] theorem reset_ctrv : State.reset.ctrv = Pair.zero := rfl
@[simp] theorem reset_tag : State.reset.tag = Quad.zero := rfl
@[simp] theorem reset_data : State.reset.data = Quad.zero := rfl
@[simp] theorem reset_b0 : State.reset.b0 = Quad.zero := rfl
@[simp] theorem reset_ctr0 : State.reset.ctr0 = Quad.zero := rfl
@[simp] theorem reset_ctx : State.reset.ctx = .uninitialized := rfl
@[simp] theorem reset_keyint : State.reset.keyint = [] := rfl
@[simp] theorem reset_reply : State.reset.reply = none := rfl

/-! ### A write of a register leaves everything outside the register file as it is -/

@[simp] theorem writeReg_status (r : Reg) (v : Word) (s : State) : (writeReg r v s).status = s.status := by
  cases r <;> rfl
@[simp] theorem writeReg_b0 (r : Reg) (v : Word) (s : State) : (writeReg r v s).b0 = s.b0 := by
  cases r <;> rfl
@[simp] theorem writeReg_ctr0 (r : Reg) (v : Word) (s : State) : (writeReg r v s).ctr0 = s.ctr0 := by
  cases r <;> rfl
@[simp] theorem writeReg_ctx (r : Reg) (v : Word) (s : State) : (writeReg r v s).ctx = s.ctx := by
  cases r <;> rfl
@[simp] theorem writeReg_keyint (r : Reg) (v : Word) (s : State) : (writeReg r v s).keyint = s.keyint := by
  cases r <;> rfl
@[simp] theorem writeReg_mem (r : Reg) (v : Word) (s : State) : (writeReg r v s).mem = s.mem := by
  cases r <;> rfl
@[simp] theorem writeReg_platform (r : Reg) (v : Word) (s : State) : (writeReg r v s).platform = s.platform := by
  cases r <;> rfl
@[simp] theorem writeReg_oracle (r : Reg) (v : Word) (s : State) : (writeReg r v s).oracle = s.oracle := by
  cases r <;> rfl
@[simp] theorem writeReg_freeSeed (r : Reg) (v : Word) (s : State) : (writeReg r v s).freeSeed = s.freeSeed := by
  cases r <;> rfl
@[simp] theorem writeReg_bus (r : Reg) (v : Word) (s : State) : (writeReg r v s).bus = s.bus := by
  cases r <;> rfl
@[simp] theorem writeReg_reply (r : Reg) (v : Word) (s : State) : (writeReg r v s).reply = s.reply := by
  cases r <;> rfl

end Sys2Proof.Machine
end

