-- ==== Sys2Proof/Laws/Ops.lean ====
section
/-!
SUPPORT. Once for each shared operation, what it can do. Later proofs cite these and do not unfold the
operations.
-/
namespace Sys2Proof.Machine

/-! ### Validation -/

/-- No check fails exactly when every check passes. -/
theorem firstError_eq_none {checks : List Check} : firstError checks = none ↔ ∀ c ∈ checks, c.1 = true := by
  induction checks with
  | nil => simp [firstError]
  | cons c rest ih =>
    obtain ⟨ok, e⟩ := c
    cases ok <;> simp [firstError, ih]

/-- A command whose checks pass runs its execution phase. -/
theorem validated_pass {checks : List Check} {ex : State → Out} {s : State}
    (h : firstError checks = none) : validated checks ex s = ex s := by
  simp [validated, h]

/-- A command whose first failing check has the error `c` ends with it. -/
theorem validated_fail {checks : List Check} {ex : State → Out} {s : State} {c : ErrCode}
    (h : firstError checks = some c) : validated checks ex s = .next (raise c s) := by
  simp [validated, h]

/-- What a validated command can answer. -/
theorem validated_cases {checks : List Check} {ex : State → Out} {s : State} {o : Out}
    (h : validated checks ex s = o) :
    (∃ c, firstError checks = some c ∧ o = .next (raise c s))
      ∨ (firstError checks = none ∧ ex s = o) := by
  unfold validated at h
  split at h
  · exact .inl ⟨_, by assumption, h.symm⟩
  · exact .inr ⟨by assumption, h⟩

/-! ### Calls of the block cipher -/

@[simp] theorem cipherE_length (key block : Bytes) : (cipherE key block).length = 16 := by
  simp [cipherE]

theorem withCalls_ok {n : Nat} {f g : State → Out} {s : State} (h : cipherFails n s = false) :
    withCalls n f g s = g (afterCalls n s) := by
  simp [withCalls, h]

theorem withCalls_fail {n : Nat} {f g : State → Out} {s : State} (h : cipherFails n s = true) :
    withCalls n f g s = f (afterCalls n s) := by
  simp [withCalls, h]

/-- Where the cipher cannot fail, calls of it change nothing. -/
theorem afterCalls_of_cannot_fail {n : Nat} {s : State} (h : s.platform.cipherCanFail = false) :
    afterCalls n s = s := by
  simp [afterCalls, h]

theorem cipherFails_of_cannot_fail {n : Nat} {s : State} (h : s.platform.cipherCanFail = false) :
    cipherFails n s = false := by
  simp [cipherFails, h]

/-- The calls change the oracle and nothing else. -/
theorem afterCalls_eq (n : Nat) (s : State) : afterCalls n s = { s with oracle := (afterCalls n s).oracle } := by
  unfold afterCalls; split <;> rfl

/-- What a command with calls of the cipher can answer. -/
theorem withCalls_cases {n : Nat} {f g : State → Out} {s : State} {o : Out} (h : withCalls n f g s = o) :
    (cipherFails n s = true ∧ f (afterCalls n s) = o)
      ∨ (cipherFails n s = false ∧ g (afterCalls n s) = o) := by
  unfold withCalls at h
  split at h
  · exact .inl ⟨by assumption, h⟩
  · exact .inr ⟨by simpa using ‹¬cipherFails n s = true›, h⟩

/-! ### The output range after an abort -/

@[simp] theorem abortBytes_length (choose : Fin 3 → Byte → Byte → Byte) (seed : Nat) (old new : Bytes) :
    (abortBytes choose seed old new).length = old.length := by
  simp [abortBytes]

theorem abortBytes_getD (choose : Fin 3 → Byte → Byte → Byte) (seed : Nat) (old new : Bytes) {j : Nat}
    (h : j < old.length) :
    (abortBytes choose seed old new).getD j 0
      = choose (Config.freeChoice seed j) (old.getD j 0) (new.getD j 0) := by
  simp [abortBytes, List.getD_eq_getElem?_getD, h]

/-- A byte of ENCRYPT's output after an abort is the old one or the new one. -/
theorem abortByteEncrypt_cases (pick : Fin 3) (old new : Byte) :
    abortByteEncrypt pick old new = old ∨ abortByteEncrypt pick old new = new := by
  unfold abortByteEncrypt; split <;> simp

/-- A byte of DECRYPT's output after an abort is the old one, 0, or the plaintext's after a match. -/
theorem abortByteDecrypt_cases (matched : Bool) (pick : Fin 3) (old plain : Byte) :
    abortByteDecrypt matched pick old plain = old ∨ abortByteDecrypt matched pick old plain = 0
      ∨ (matched = true ∧ abortByteDecrypt matched pick old plain = plain) := by
  unfold abortByteDecrypt
  split
  · simp
  · split
    · simp
    · cases matched <;> simp

/-! ### Ranges and admission -/

theorem rangeAdmitted_iff {p : Platform} {kind : AccessKind} {addr n : Nat} :
    rangeAdmitted p kind addr n = true ↔ ∀ j < n, memAdmit p kind (addr + j) = true := by
  simp [rangeAdmitted]

/-- A register pair holds a number below 2^64. -/
theorem pair_u64_lt (p : Pair) : p.u64 < 2 ^ 64 := by
  have h1 := p.lo.isLt
  have h2 := p.hi.isLt
  unfold Pair.u64
  omega

@[simp] theorem aadBytes_length (s : State) : (aadBytes s).length = opA s := by simp [aadBytes]

@[simp] theorem inBytes_length (s : State) : (inBytes s).length = opM s := by simp [inBytes]

@[simp] theorem outBytes_length (s : State) : (outBytes s).length = opM s := by simp [outBytes]

/-- CTRL.NONCELEN has 4 bits, so the nonce has `n` bytes. -/
@[simp] theorem opNonce_length (s : State) : (opNonce s).length = opN s := by
  have h := (s.ctrl.extractLsb' 8 4).isLt
  simp only [opNonce, List.length_take, quad_bytes_length, opN]
  omega

/-! ### The register file -/

/-- A read of a register that the write does not name gives what it gave before. -/
theorem readReg_writeReg_ne {r r' : Reg} (h : r' ≠ r) (v : Word) (s : State) :
    readReg r' (writeReg r v s) = readReg r' s := by
  cases r <;> cases r' <;> simp_all [readReg, writeReg]
  case nonce.nonce i j => fin_cases i <;> fin_cases j <;> simp_all [Quad.get, Quad.set]
  case tag.tag i j => fin_cases i <;> fin_cases j <;> simp_all [Quad.get, Quad.set]
  case data.data i j => fin_cases i <;> fin_cases j <;> simp_all [Quad.get, Quad.set]
  all_goals
    rename_i h1 h2
    cases h1 <;> cases h2 <;> simp_all [Pair.get, Pair.set]

end Sys2Proof.Machine
end

