-- ==== Sys2Proof/Laws/Bus.lean ====
section
/-!
SUPPORT. What the next action of the bus asks of the engine, and the register window.
-/
namespace Sys2Proof.Machine

theorem storeInMemory_iff (addr : BitVec 64) (bytes : Bytes) :
    storeInMemory addr bytes = true ↔ addr.toNat + bytes.length ≤ 2 ^ 64 := by
  unfold storeInMemory; exact decide_eq_true_iff

/-- An aligned 32-bit access has a meaning (10_state.md R25). -/
theorem accessRefusal_none {off : BitVec 12} (h : off.toNat % 4 = 0) : accessRefusal 32 off = none := by
  simp [accessRefusal, accessWidthOK, accessAligned, h]

/-- Every register stands at its offset of the window (10_state.md R22). -/
@[simp] theorem regAt_windowOffset (r : Reg) : regAt r.windowOffset = some r := by
  cases r with
  | cmd | status | ctrl => decide
  | key i => revert i; decide
  | nonce i | tag i | data i | b0 i | ctr0 i => revert i; decide
  | alen h | mlen h | aadaddr h | inaddr h | outaddr h | ctrv h => cases h <;> decide

/-- Every register stands at a multiple of 4 (10_state.md R22). -/
theorem windowOffset_aligned (r : Reg) : r.windowOffset.toNat % 4 = 0 := by
  cases r with
  | cmd | status | ctrl => decide
  | key i => revert i; decide
  | nonce i | tag i | data i | b0 i | ctr0 i => revert i; decide
  | alen h | mlen h | aadaddr h | inaddr h | outaddr h | ctrv h => cases h <;> decide

theorem hostRead_aligned {off : BitVec 12} (h : off.toNat % 4 = 0) (s : State) :
    hostRead 32 off s = .next { s with reply := some (readOffset off s) } := by
  simp [hostRead, accessRefusal_none h]

theorem hostWrite_register {off : BitVec 12} (h : off.toNat % 4 = 0) (hc : regAt off ≠ some .cmd) (v : Word)
    (s : State) : hostWrite 32 off v s = .done (.next (writeOffset off v s)) := by
  simp [hostWrite, accessRefusal_none h, hc]

theorem hostWrite_command (w : Word) (s : State) : hostWrite 32 0x000 w s = commandWrite w s := by
  have h0 : regAt 0x000 = some .cmd := by decide
  have ha : (0x000 : BitVec 12).toNat % 4 = 0 := by decide
  unfold hostWrite
  rw [accessRefusal_none ha]
  exact if_pos h0

/-- Reset leaves the register values of 10_state.md R22. -/
theorem readReg_platformReset (r : Reg) (s : State) :
    readReg r (platformReset s) = if r = .ctrl then 0x00000010 else 0x00000000 := by
  cases r <;> simp [readReg, Quad.zero, Pair.zero]
  all_goals
    rename_i x
    first
      | (fin_cases x <;> rfl)
      | (cases x <;> rfl)

/-- A register holds what was just written to it (10_state.md R28). -/
theorem quad_get_set (q : Quad) (i : Fin 4) (v : Word) : (q.set i v).get i = v := by
  fin_cases i <;> rfl

theorem pair_get_set (p : Pair) (h : Half) (v : Word) : (p.set h v).get h = v := by
  cases h <;> rfl

end Sys2Proof.Machine
end

