-- ==== Sys2Proof/Laws/Checks.lean ====
section
/-!
SUPPORT. The checks of the validation phase in the terms of the statements (Sys2Proof/Safety.lean).
-/
namespace Sys2Proof.Machine

theorem nonceLenOK_iff (s : State) : nonceLenOK (opN s) = true ↔ nonceReady s := by
  simp [nonceLenOK]

theorem tagLenOK_iff (s : State) : tagLenOK (opT s) = true ↔ tagReady s := by
  simp [tagLenOK]; tauto

theorem keyLenOK_iff (s : State) : keyLenOK (opK s) = true ↔ opK s ∈ [16, 24, 32] := by
  simp [keyLenOK]; tauto

theorem msgLenOK_iff (s : State) : msgLenOK (opM s) (opL s) = true ↔ lengthReady s := by
  unfold msgLenOK opL; exact decide_eq_true_iff

theorem rangeOK_iff (addr len : Nat) : rangeOK addr len = true ↔ rangeReady addr len := by
  simp only [rangeOK, Bool.or_eq_true, beq_iff_eq, decide_eq_true_eq, rangeReady]
  omega

theorem disjointRanges_iff {a₁ l₁ a₂ l₂ : Nat} (h₁ : 0 < l₁) (h₂ : 0 < l₂) :
    disjointRanges a₁ l₁ a₂ l₂ = true ↔ apart a₁ l₁ a₂ l₂ := by
  simp only [disjointRanges, Bool.or_eq_true, decide_eq_true_eq, apart]
  constructor
  · intro h _ _ a
    omega
  · intro h
    by_contra hc
    have := h h₁ h₂ (max a₁ a₂)
    omega

/-- The overlaps that run are those of 20_memory.md R70. -/
theorem overlapDefined_iff (s : State) : overlapDefined s = true ↔ buffersPlaced s := by
  simp only [overlapDefined, Bool.or_eq_true, Bool.and_eq_true, beq_iff_eq, buffersPlaced]
  rcases Nat.eq_zero_or_pos (opM s) with hm | hm
  · simp [hm, apart]
  · rw [disjointRanges_iff hm hm]
    rcases Nat.eq_zero_or_pos (opA s) with ha | ha
    · simp [ha, apart]
    · rw [disjointRanges_iff ha hm]
      constructor
      · rintro (h | ⟨h1, h2⟩)
        · omega
        · exact ⟨.inr h1, h2.resolve_left (by omega)⟩
      · rintro ⟨h1, h2⟩
        exact .inr ⟨h1.resolve_left (by omega), .inr h2⟩

/-- ENCRYPT's and DECRYPT's checks pass exactly when the message is valid. -/
theorem messageChecks_none_iff (s : State) : firstError (messageChecks s) = none ↔ messageValid s := by
  simp only [firstError_eq_none, messageChecks, checkKeySet, checkNonceLen, checkTagLen, checkMsgLen,
    checkAadRange, checkInRange, checkOutRange, List.forall_mem_cons, beq_iff_eq,
    nonceLenOK_iff, tagLenOK_iff, msgLenOK_iff, rangeOK_iff, messageValid]
  simp

theorem readsAdmitted_iff (s : State) : readsAdmitted s = true ↔
    admitted s .read (aadAddr s) (opA s) ∧ admitted s .read (inAddr s) (opM s) := by
  simp only [readsAdmitted, Bool.and_eq_true, rangeAdmitted_iff, admitted]

theorem writesAdmitted_iff (s : State) : writesAdmitted s = true ↔
    admitted s .write (outAddr s) (opM s) := by
  simp only [writesAdmitted, rangeAdmitted_iff, admitted]

end Sys2Proof.Machine
end

