-- ==== Sys2Proof/Laws/Context.lean ====
section
/-!
SUPPORT. The lengths of the CCM strings, and, once for ENCRYPT and once for DECRYPT, every way the command
can end. Later proofs take these cases and do not unfold the commands.
-/
namespace Sys2Proof.Machine

/-! ### Lengths -/

theorem cbcMac_length (key x : Bytes) : (cbcMac key x).length = 16 := by
  unfold cbcMac
  generalize List.range (x.length / 16 - 1) = l
  suffices h : ∀ y : Bytes, y.length = 16 →
      (l.foldl (fun y j => cipherE key (xorBytes y (blockOf x (j + 1)))) y).length = 16 from
    h _ (by simp)
  induction l with
  | nil => exact fun _ h => h
  | cons a l ih => exact fun y _ => ih _ (by simp)

@[simp] theorem rawMac_length (key nonce : Bytes) (t : Nat) (aad p : Bytes) :
    (rawMac key nonce t aad p).length = 16 := cbcMac_length _ _

@[simp] theorem keystream_length (key nonce : Bytes) (i : Nat) : (keystream key nonce i).length = 16 := by
  simp [keystream]

@[simp] theorem ccmTag_length (key nonce aad p : Bytes) (t : Nat) :
    (ccmTag key nonce aad p t).length = min t 16 := by
  simp [ccmTag, maskMac]

/-- The tag the commands compute is the tag written out in Sys2Proof/Safety.lean. -/
theorem ccmTag_eq_tagOver (s : State) (p : Bytes) :
    ccmTag s.keyint (opNonce s) (aadBytes s) p (opT s) = tagOver s p := by
  simp only [ccmTag, maskMac, rawMac, aadBytes_length]
  rfl

/-- The expected tag of DECRYPT is the tag over the plaintext it recovers. -/
theorem expectedTag_eq_tagOver (s : State) : expectedTag s = tagOver s (transformedInput s) :=
  ccmTag_eq_tagOver s _

theorem ctrBlocks_length (key nonce x : Bytes) (n : Nat) :
    ((List.range n).flatMap fun j =>
      xorBytes (blockOf x j) (msb (blockOf x j).length (keystream key nonce (j + 1)))).length
      = min (16 * n) x.length := by
  induction n with
  | zero => simp
  | succ n ih =>
    rw [List.range_succ, List.flatMap_append, List.length_append, ih]
    simp [blockOf_length]
    omega

@[simp] theorem encrypted_length (s : State) : (encrypted s).1.length = opM s := by
  have h := ctrBlocks_length s.keyint (opNonce s) (inBytes s) (nblocks (inBytes s).length)
  rw [inBytes_length] at h
  simp only [encrypted, ccmEncrypt, ccmCiphertext, ctrCrypt, inBytes_length]
  rw [h, nblocks]
  omega

@[simp] theorem recovered_length (s : State) : (recovered s).length = opM s := encrypted_length s

@[simp] theorem abortOutEncrypt_length (s : State) : (abortOutEncrypt s).length = opM s := by
  simp [abortOutEncrypt]

@[simp] theorem abortOutDecrypt_length (matched : Bool) (s : State) :
    (abortOutDecrypt matched s).length = opM s := by
  simp [abortOutDecrypt]

/-! ### ENCRYPT's ends -/

/-- Every way ENCRYPT ends: a failed check, a refused overlap, an abort, or success. `o` is what the calls of
`E` leave of the oracle. -/
inductive EncryptEnd (s : State) : Out → Prop
  | invalid (c : ErrCode) (h : firstError (messageChecks s) = some c) : EncryptEnd s (.next (raise c s))
  | overlap (h : messageValid s) (h' : ¬buffersPlaced s) : EncryptEnd s (.refused .overlappingBuffers)
  | aborted (h : messageValid s) (h' : buffersPlaced s) (c : ErrCode)
      (hc : c = .bufferFault ∨ c = .blockCipherFault) (o : List Nat) :
      EncryptEnd s (.next (abortEncrypt c { s with oracle := o }))
  | done (h : messageValid s) (h' : buffersPlaced s) (o : List Nat) :
      EncryptEnd s (.next (complete
        { s with
          oracle := o
          mem := memWrite s.mem (outAddr s) (encrypted s).1
          tag := tagRegister (encrypted s).2 (opT s) }))

/-- Where a test is refused, the refusal is what comes of it. -/
theorem of_not_ok {b : Bool} {x y o : Out} (h : (if (!b) = true then x else y) = o) :
    (b = false ∧ x = o) ∨ (b = true ∧ y = o) := by
  cases b
  · exact .inl ⟨rfl, by simpa using h⟩
  · exact .inr ⟨rfl, by simpa using h⟩

theorem execEncrypt_ends (s : State) : EncryptEnd s (execEncrypt s) := by
  generalize ho : execEncrypt s = o
  rcases validated_cases ho with ⟨c, hc, rfl⟩ | ⟨hv, hx⟩
  · exact .invalid c hc
  have hv' := (messageChecks_none_iff s).1 hv
  rcases of_not_ok hx with ⟨hp, h⟩ | ⟨hp, hx⟩
  · rw [← h]
    exact .overlap hv' (by rw [← overlapDefined_iff, hp]; simp)
  have hp' := (overlapDefined_iff s).1 hp
  rcases of_not_ok hx with ⟨-, h⟩ | ⟨-, hx⟩
  · rw [← h]
    exact .aborted hv' hp' .bufferFault (.inl rfl) s.oracle
  rcases withCalls_cases hx with ⟨-, h⟩ | ⟨-, hx⟩
  · rw [← h, afterCalls_eq]
    exact .aborted hv' hp' .blockCipherFault (.inr rfl) _
  rcases of_not_ok hx with ⟨-, h⟩ | ⟨-, h⟩
  · rw [← h, afterCalls_eq]
    exact .aborted hv' hp' .bufferFault (.inl rfl) _
  · rw [← h, afterCalls_eq]
    exact .done hv' hp' _

/-! ### DECRYPT's ends -/

@[simp] theorem cutOutput_length {i : Instr} (h : writesBuffer i = true) (s : State) :
    (cutOutput i s).length = opM s := by
  cases i <;> simp [writesBuffer] at h <;> simp [cutOutput]

/-- Where the comparison is made, the reads are admitted and the first pass makes its calls. -/
theorem comparisonMade_iff (s : State) :
    comparisonMade s = true ↔ readsAdmitted s = true ∧ cipherFails (passCalls s) s = false := by
  simp [comparisonMade]

/-- Every way DECRYPT ends: a failed check, a refused overlap, an abort, which may release plaintext only
after the comparison was made and the tags matched, success on a match, or AuthenticationFailed on a
mismatch. -/
inductive DecryptEnd (s : State) : Out → Prop
  | invalid (c : ErrCode) (h : firstError (messageChecks s) = some c) : DecryptEnd s (.next (raise c s))
  | overlap (h : messageValid s) (h' : ¬buffersPlaced s) : DecryptEnd s (.refused .overlappingBuffers)
  | aborted (h : messageValid s) (h' : buffersPlaced s) (matched : Bool)
      (hm : matched = true → comparisonMade s = true ∧ tagsMatch s = true) (c : ErrCode)
      (hc : c = .bufferFault ∨ c = .blockCipherFault) (o : List Nat) :
      DecryptEnd s (.next (abortDecrypt matched c { s with oracle := o }))
  | done (h : messageValid s) (h' : buffersPlaced s) (hr : comparisonMade s = true)
      (hm : tagsMatch s = true) (o : List Nat) :
      DecryptEnd s (.next (complete
        { s with oracle := o, mem := memWrite s.mem (outAddr s) (recovered s) }))
  | unequal (h : messageValid s) (h' : buffersPlaced s) (hr : comparisonMade s = true)
      (hm : tagsMatch s = false) (o : List Nat) :
      DecryptEnd s (.next (raise .authenticationFailed
        { s with oracle := o, mem := memWrite s.mem (outAddr s) (zeros (opM s)) }))

theorem execDecrypt_ends (s : State) : DecryptEnd s (execDecrypt s) := by
  generalize ho : execDecrypt s = o
  rcases validated_cases ho with ⟨c, hc, rfl⟩ | ⟨hv, hx⟩
  · exact .invalid c hc
  have hv' := (messageChecks_none_iff s).1 hv
  rcases of_not_ok hx with ⟨hp, h⟩ | ⟨hp, hx⟩
  · rw [← h]
    exact .overlap hv' (by rw [← overlapDefined_iff, hp]; simp)
  have hp' := (overlapDefined_iff s).1 hp
  rcases of_not_ok hx with ⟨-, h⟩ | ⟨ha, hx⟩
  · rw [← h]
    exact .aborted hv' hp' false (by simp) .bufferFault (.inl rfl) s.oracle
  rcases withCalls_cases hx with ⟨-, h⟩ | ⟨hf, hx⟩
  · rw [← h, afterCalls_eq]
    exact .aborted hv' hp' false (by simp) .blockCipherFault (.inr rfl) _
  have hr := (comparisonMade_iff s).2 ⟨ha, hf⟩
  rw [afterCalls_eq] at hx
  generalize (afterCalls (passCalls s) s).oracle = o₁ at hx
  by_cases hm : tagsMatch s = true
  · rw [if_pos (show tagsMatch { s with oracle := o₁ } = true from hm)] at hx
    rcases withCalls_cases hx with ⟨-, h⟩ | ⟨-, hx⟩
    · rw [← h, afterCalls_eq]
      exact .aborted hv' hp' true (fun _ => ⟨hr, hm⟩) .blockCipherFault (.inr rfl) _
    rw [afterCalls_eq] at hx
    rcases of_not_ok hx with ⟨-, h⟩ | ⟨-, h⟩
    · rw [← h]
      exact .aborted hv' hp' true (fun _ => ⟨hr, hm⟩) .bufferFault (.inl rfl) _
    · rw [← h]
      exact .done hv' hp' hr hm _
  · rw [if_neg (show ¬tagsMatch { s with oracle := o₁ } = true from hm)] at hx
    rcases of_not_ok hx with ⟨-, h⟩ | ⟨-, h⟩
    · rw [← h]
      exact .aborted hv' hp' false (by simp) .bufferFault (.inl rfl) _
    · rw [← h]
      exact .unequal hv' hp' hr (by simpa using hm) _

end Sys2Proof.Machine
end

