-- ==== Sys2Proof/Laws/PerInstr.lean ====
section
/-!
SUPPORT. What is proved of each command as syntax: its word has zeros above the opcode, decodes to it and to
no other command, and the table's numbering reads it back (30_encoding.md R80 to R82).
-/
namespace Sys2Proof.Laws.WordRoundTrip

/-- The command's word decodes to the command, its opcode is assigned and its reserved bits are 0. -/
def Statement (i : Instr) : Prop :=
  i.wellFormed = true ∧ cmdReserved (encode i) = 0 ∧ (cmdOpcode (encode i)).toNat = i.opcode
    ∧ decode (encode i) = .command i ∧ decodeTableWord 32 (encode i).toNat = some i

theorem setkey : Statement .setkey := by unfold Statement; decide

theorem free : Statement .free := by unfold Statement; decide

theorem format : Statement .format := by unfold Statement; decide

theorem rawmac : Statement .rawmac := by unfold Statement; decide

theorem keystream : Statement .keystream := by unfold Statement; decide

theorem maskmac : Statement .maskmac := by unfold Statement; decide

theorem verify : Statement .verify := by unfold Statement; decide

theorem encrypt : Statement .encrypt := by unfold Statement; decide

theorem decrypt : Statement .decrypt := by unfold Statement; decide

end Sys2Proof.Laws.WordRoundTrip
end

