-- ==== Sys2Proof/Tests/Slice0.lean ====
section
/-!
SUPPORT. Tests of the model. Expected values are those of 95_test_vectors.md, named at each test, or follow
from the rule named there. The `test_meets_` theorems show, for each statement of
Sys2Proof/Certificates/Slice0/Obligations.lean that has hypotheses, a concrete case that meets them.
-/
open Sys2Proof Sys2Proof.Machine

/-! ### Well-formedness: each check refuses an ill-formed term -/

theorem test_wf_narrow_access : HostAction.wellFormed (.write 8 0x008 0) = false := by decide

theorem test_wf_misaligned_access : HostAction.wellFormed (.read 32 0x031) = false := by decide

theorem test_wf_store_past_top :
    HostAction.wellFormed (.store 0xFFFFFFFFFFFFFFFF [1, 2]) = false
      ∧ HostAction.wellFormed (.store 0xFFFFFFFFFFFFFFFF [1]) = true := by decide

theorem test_wf_unassigned_opcodes : opcodeAssigned 0x0 = false ∧ opcodeAssigned 0xA = false := by decide

/-! ### Decoding: every word of 30_encoding.md R82, and the illegal words of V-ERR-2 -/

theorem test_decode_setkey : decode 0b00000000000000000000000000000001 = .command .setkey := by decide
theorem test_decode_free : decode 0b00000000000000000000000000000010 = .command .free := by decide
theorem test_decode_format : decode 0b00000000000000000000000000000011 = .command .format := by decide
theorem test_decode_rawmac : decode 0b00000000000000000000000000000100 = .command .rawmac := by decide
theorem test_decode_keystream : decode 0b00000000000000000000000000000101 = .command .keystream := by decide
theorem test_decode_maskmac : decode 0b00000000000000000000000000000110 = .command .maskmac := by decide
theorem test_decode_verify : decode 0b00000000000000000000000000000111 = .command .verify := by decide
theorem test_decode_encrypt : decode 0b00000000000000000000000000001000 = .command .encrypt := by decide
theorem test_decode_decrypt : decode 0b00000000000000000000000000001001 = .command .decrypt := by decide

theorem test_decode_illegal :
    decode 0x00000000 = .rejected .reservedOpcode ∧ decode 0x0000000F = .rejected .reservedOpcode
      ∧ decode 0x00000010 = .rejected .reservedBits ∧ decode 0x00000108 = .rejected .reservedBits
      ∧ decode 0x80000008 = .rejected .reservedBits := by decide

theorem test_decode_table_word :
    decodeTableWord 32 0x9 = some .decrypt ∧ decodeTableWord 32 0x11 = none
      ∧ decodeTableWord 64 (2 ^ 32 + 1) = none := by decide

/-! ### The states the tests start from -/

/-- K16: `40 41 ... 4f` (95_test_vectors.md). -/
def keyK16 : Bytes :=
  [0x40, 0x41, 0x42, 0x43, 0x44, 0x45, 0x46, 0x47, 0x48, 0x49, 0x4a, 0x4b, 0x4c, 0x4d, 0x4e, 0x4f]

/-- N7: `10 11 ... 16` (95_test_vectors.md). -/
def nonceN7 : Bytes := [0x10, 0x11, 0x12, 0x13, 0x14, 0x15, 0x16]

/-- The state of PRG-1 just before ENCRYPT (95_test_vectors.md): K16, N7, `a` = 8 at 0x1000, `m` = 4 at 0x2000,
output at 0x3000, `t` = 4. -/
def ready : State :=
  { State.reset with
    ctx := .keySet
    status := 1
    keyint := keyK16
    ctrl := 0x00100704
    nonce := Quad.ofBytes (nonceN7 ++ zeros 9)
    alen := ⟨8, 0⟩
    mlen := ⟨4, 0⟩
    aadaddr := ⟨0x1000, 0⟩
    inaddr := ⟨0x2000, 0⟩
    outaddr := ⟨0x3000, 0⟩
    mem := memWrite (memWrite [] 0x1000 [0, 1, 2, 3, 4, 5, 6, 7]) 0x2000 [0x20, 0x21, 0x22, 0x23] }

/-- The state with the next action of the host. -/
def doing (s : State) (act : HostAction) : State := { s with bus := [act] }

/-- The state an outcome goes on in, if it goes on. -/
def nextOf : Out → Option State
  | .next s => some s
  | .fault _ => none
  | .refused _ => none

/-- The STATUS a command leaves. -/
def statusAfter (i : Instr) (s : State) : Option Word := (nextOf (exec i s)).map State.status

/-! ### Registers (V-REG-1, V-REG-2, V-REG-3) -/

theorem test_ctrl_stores_its_fields :
    ((nextOf (step (doing State.reset (wr .ctrl 0xFFFFFFFF)))).map State.ctrl) = some 0x003F0F1F := by decide

theorem test_key_reads_zero :
    ((nextOf (step (doing { ready with key := ⟨⟨1, 2, 3, 4⟩, Quad.zero⟩ } (rd (.key 0))))).map State.reply)
      = some (some 0) := by decide

theorem test_reserved_offsets :
    nextOf (step (doing ready (.write 32 0x0B0 7))) = some ready
      ∧ nextOf (step (doing ready (.read 32 0xFFC))) = some { ready with reply := some 0 } := by decide

theorem test_read_only_registers :
    nextOf (step (doing ready (wr .status 0xFF))) = some ready
      ∧ nextOf (step (doing ready (wr (.b0 3) 5))) = some ready := by decide

/-- 10_state.md R22: a read of STATUS at 0x004 and of B0_3 at 0x09C returns what the register holds. -/
theorem test_readable_registers :
    nextOf (step (doing { ready with status := 0x00000063 } (.read 32 0x004)))
        = some { ready with status := 0x00000063, reply := some 0x00000063 }
      ∧ nextOf (step (doing { ready with b0 := ⟨1, 2, 3, 4⟩ } (.read 32 0x09C)))
        = some { ready with b0 := ⟨1, 2, 3, 4⟩, reply := some 4 } := by decide

theorem test_pair_halves :
    opM (writeReg (.mlen .lo) 4 { ready with mlen := ⟨0, 1⟩ }) = 2 ^ 32 + 4 := by decide

theorem test_host_syntax :
    ctrl 4 7 16 = wr .ctrl 0x00100704
      ∧ wr64 .mlen (2 ^ 32 + 4) = [wr (.mlen .lo) 4, wr (.mlen .hi) 1]
      ∧ wrblk .nonce nonceN7 = [wr (.nonce 0) 0x13121110, wr (.nonce 1) 0x00161514, wr (.nonce 2) 0,
        wr (.nonce 3) 0]
      ∧ command .decrypt = .write 32 0x000 9 := by decide

/-! ### The commands -/

/-- 45_context.md R190, worked example. -/
theorem test_setkey_loads :
    ((nextOf (exec .setkey
      { State.reset with
        ctrl := 0x00100000
        key := ⟨⟨0x43424140, 0x47464544, 0x4B4A4948, 0x4F4E4D4C⟩, Quad.zero⟩ })).map
      fun t => (t.status, t.keyint, t.key)) = some (0x00000001, keyK16, KeyStage.zero) := by decide

/-- V-CTX-1, last row. -/
theorem test_setkey_keeps_the_key :
    ((nextOf (exec .setkey { ready with ctrl := 0x00140000, key := ⟨Quad.zero, ⟨9, 9, 9, 9⟩⟩ })).map
      fun t => (t.status, t.keyint, t.key)) = some (0x00000013, keyK16, KeyStage.zero) := by decide

/-- V-CTX-3. -/
theorem test_free :
    ((nextOf (exec .free ready)).map fun t => (t.status, t.ctx, t.keyint))
      = some (0x00000000, .uninitialized, [])
      ∧ statusAfter .encrypt { State.reset with ctrl := 0x00200605 } = some 0x00000052 := by decide

/-- V-FMT-8. -/
theorem test_format :
    ((nextOf (exec .format ready)).map fun t => (t.b0, t.ctr0, t.status))
      = some (⟨0x1211104F, 0x16151413, 0x00000000, 0x04000000⟩,
        ⟨0x12111007, 0x16151413, 0x00000000, 0x00000000⟩, 0x00000001) := by decide

/-- V-FMT-5, V-FMT-9. -/
theorem test_format_checks :
    statusAfter .format { ready with ctrl := 0x00000D10, mlen := ⟨65536, 0⟩ } = some 0x00000043
      ∧ statusAfter .format { ready with ctrl := 0x00000D10, mlen := ⟨65535, 0⟩ } = some 0x00000001 := by
  decide

/-- V-MAC-3. -/
theorem test_rawmac_range :
    statusAfter .rawmac { ready with ctrl := 0x00000D10, aadaddr := ⟨0xFFFFFFF9, 0xFFFFFFFF⟩ }
      = some 0x00000093
      ∧ statusAfter .rawmac { ready with ctrl := 0x00000D10, aadaddr := ⟨0xFFFFFFF8, 0xFFFFFFFF⟩ }
        = some 0x00000001 := by decide

/-- V-KS-4. -/
theorem test_keystream_limit :
    statusAfter .keystream { ready with ctrl := 0x00000D05, ctrv := ⟨65536, 0⟩ } = some 0x00000043
      ∧ statusAfter .keystream { ready with ctrl := 0x00000D05, ctrv := ⟨65535, 0⟩ } = some 0x00000001 := by
  decide

/-- V-TAG-4: the rows of TAGLEN 4. -/
theorem test_verify :
    statusAfter .verify { ready with data := ⟨0x5D25AC4D, 0, 0, 0⟩, tag := ⟨0x5D25AC4D, 0xFFFFFFFF, 0, 0⟩ }
      = some 0x00000001
      ∧ statusAfter .verify { ready with data := ⟨0x5D25AC4D, 0, 0, 0⟩, tag := ⟨0xDD25AC4D, 0, 0, 0⟩ }
        = some 0x00000063 := by decide

/-- V-TAG-4: TAGLEN 16 and TAGLEN 5. -/
theorem test_verify_taglen :
    statusAfter .verify
        { ready with ctrl := 0x10, data := ⟨0x5D25AC4D, 0, 0, 0⟩, tag := ⟨0x5D25AC4D, 0xFFFFFFFF, 0, 0⟩ }
      = some 0x00000063
      ∧ statusAfter .verify { ready with ctrl := 0x05 } = some 0x00000033 := by decide

/-- 20_memory.md R70: an overlap of input and output by one byte is refused; in place runs. -/
theorem test_encrypt_overlap :
    nextOf (exec .encrypt { ready with outaddr := ⟨0x2003, 0⟩ }) = none
      ∧ statusAfter .encrypt { ready with outaddr := ⟨0x2004, 0⟩ } = some 0x00000001
      ∧ statusAfter .encrypt { ready with outaddr := ⟨0x2000, 0⟩ } = some 0x00000001 := by
  refine ⟨by decide, by decide, by decide⟩

/-! ### Known answers (V-KAT-1), from the values of `E` that AES gives -/

/-- B0 and the two inputs after it, S_0's and S_1's counter blocks, and what AES makes of them (V-KAT-1). -/
def aesKat1 : Prop :=
  cipherE keyK16 [0x4f, 0x10, 0x11, 0x12, 0x13, 0x14, 0x15, 0x16, 0, 0, 0, 0, 0, 0, 0, 0x04]
      = [0x2a, 0xd2, 0x39, 0xbb, 0x22, 0x9b, 0x8f, 0xb4, 0x6e, 0x30, 0x8f, 0x5b, 0xc7, 0x40, 0x9b, 0x88]
    ∧ cipherE keyK16
        [0x2a, 0xda, 0x39, 0xba, 0x20, 0x98, 0x8b, 0xb1, 0x68, 0x37, 0x8f, 0x5b, 0xc7, 0x40, 0x9b, 0x88]
      = [0x2e, 0x3b, 0x95, 0x53, 0x0a, 0xd7, 0xc9, 0x02, 0x68, 0xca, 0xf2, 0xc5, 0x97, 0xc4, 0x92, 0x92]
    ∧ cipherE keyK16
        [0x0e, 0x1a, 0xb7, 0x70, 0x0a, 0xd7, 0xc9, 0x02, 0x68, 0xca, 0xf2, 0xc5, 0x97, 0xc4, 0x92, 0x92]
      = [0x60, 0x84, 0x34, 0x1b, 0x32, 0x04, 0x2b, 0xf0, 0x00, 0xb4, 0xb7, 0x99, 0x55, 0x53, 0xa3, 0xc5]
    ∧ cipherE keyK16 [0x07, 0x10, 0x11, 0x12, 0x13, 0x14, 0x15, 0x16, 0, 0, 0, 0, 0, 0, 0, 0]
      = [0x2d, 0x28, 0x11, 0x46, 0x10, 0x67, 0x6c, 0x26, 0x32, 0xba, 0xd7, 0x48, 0x55, 0x9a, 0x67, 0x9a]
    ∧ cipherE keyK16 [0x07, 0x10, 0x11, 0x12, 0x13, 0x14, 0x15, 0x16, 0, 0, 0, 0, 0, 0, 0, 0x01]
      = [0x51, 0x43, 0x23, 0x78, 0xe4, 0x74, 0xb3, 0x39, 0x71, 0x31, 0x84, 0x84, 0x10, 0x3c, 0xdd, 0xfb]

/-- The raw MAC of V-KAT-1. -/
theorem rawMac_of_kat1 (h : aesKat1) :
    rawMac keyK16 nonceN7 4 [0, 1, 2, 3, 4, 5, 6, 7] [0x20, 0x21, 0x22, 0x23]
      = [0x60, 0x84, 0x34, 0x1b, 0x32, 0x04, 0x2b, 0xf0, 0x00, 0xb4, 0xb7, 0x99, 0x55, 0x53, 0xa3, 0xc5] := by
  obtain ⟨h0, h1, h2, -, -⟩ := h
  have e : rawMac keyK16 nonceN7 4 [0, 1, 2, 3, 4, 5, 6, 7] [0x20, 0x21, 0x22, 0x23]
      = cipherE keyK16 (xorBytes (cipherE keyK16 (xorBytes (cipherE keyK16
          [0x4f, 0x10, 0x11, 0x12, 0x13, 0x14, 0x15, 0x16, 0, 0, 0, 0, 0, 0, 0, 0x04])
          [0x00, 0x08, 0, 1, 2, 3, 4, 5, 6, 7, 0, 0, 0, 0, 0, 0]))
          [0x20, 0x21, 0x22, 0x23, 0, 0, 0, 0, 0, 0, 0, 0, 0, 0, 0, 0]) := by rfl
  rw [e, h0]
  exact h2 ▸ h1 ▸ rfl

/-- The ciphertext and the tag of V-KAT-1. -/
theorem ccmEncrypt_of_kat1 (h : aesKat1) :
    ccmEncrypt keyK16 nonceN7 [0, 1, 2, 3, 4, 5, 6, 7] [0x20, 0x21, 0x22, 0x23] 4
      = ([0x71, 0x62, 0x01, 0x5b], [0x4d, 0xac, 0x25, 0x5d]) := by
  have hr := rawMac_of_kat1 h
  obtain ⟨-, -, -, h3, h4⟩ := h
  have e : ccmEncrypt keyK16 nonceN7 [0, 1, 2, 3, 4, 5, 6, 7] [0x20, 0x21, 0x22, 0x23] 4
      = (xorBytes [0x20, 0x21, 0x22, 0x23] (msb 4 (cipherE keyK16
          [0x07, 0x10, 0x11, 0x12, 0x13, 0x14, 0x15, 0x16, 0, 0, 0, 0, 0, 0, 0, 0x01])) ++ [],
        msb 4 (xorBytes (rawMac keyK16 nonceN7 4 [0, 1, 2, 3, 4, 5, 6, 7] [0x20, 0x21, 0x22, 0x23])
          (cipherE keyK16 [0x07, 0x10, 0x11, 0x12, 0x13, 0x14, 0x15, 0x16, 0, 0, 0, 0, 0, 0, 0, 0]))) := by rfl
  rw [e, hr, h3, h4]
  decide

/-- The block S_1 of V-KS-2, by KEYSTREAM. -/
theorem test_keystream_block (h : aesKat1) :
    ((nextOf (exec .keystream { ready with ctrv := ⟨1, 0⟩ })).map State.data)
      = some ⟨0x78234351, 0x39B374E4, 0x84843171, 0xFBDD3C10⟩ := by
  show some (Quad.ofBytes (cipherE keyK16
    [0x07, 0x10, 0x11, 0x12, 0x13, 0x14, 0x15, 0x16, 0, 0, 0, 0, 0, 0, 0, 0x01])) = _
  rw [h.2.2.2.2]
  decide

/-- V-MAC-1, by RAWMAC. -/
theorem test_rawmac_data (h : aesKat1) :
    ((nextOf (exec .rawmac ready)).map State.data)
      = some ⟨0x1B348460, 0xF02B0432, 0x99B7B400, 0xC5A35355⟩ := by
  show some (Quad.ofBytes (rawMac keyK16 nonceN7 4 [0, 1, 2, 3, 4, 5, 6, 7] [0x20, 0x21, 0x22, 0x23])) = _
  rw [rawMac_of_kat1 h]
  decide

/-- V-TAG-1, by MASKMAC: four tag bytes and twelve zero bytes. -/
theorem test_maskmac_tag (h : aesKat1) :
    ((nextOf (exec .maskmac { ready with
        data := ⟨0x1B348460, 0xF02B0432, 0x99B7B400, 0xC5A35355⟩, tag := ⟨9, 9, 9, 9⟩ })).map State.tag)
      = some ⟨0x5D25AC4D, 0, 0, 0⟩ := by
  show some (tagRegister (msb 4 (xorBytes _ (cipherE keyK16
    [0x07, 0x10, 0x11, 0x12, 0x13, 0x14, 0x15, 0x16, 0, 0, 0, 0, 0, 0, 0, 0]))) 4) = _
  rw [h.2.2.2.1]
  decide

/-- PRG-1, its last command: the ciphertext at 0x3000 and the tag. -/
theorem test_encrypt_known_answer (h : aesKat1) :
    ((nextOf (exec .encrypt ready)).map fun t => (memRead t.mem 0x3000 4, t.tag))
      = some ([0x71, 0x62, 0x01, 0x5b], ⟨0x5D25AC4D, 0, 0, 0⟩) := by
  have e : encrypted ready = ([0x71, 0x62, 0x01, 0x5b], [0x4d, 0xac, 0x25, 0x5d]) :=
    ccmEncrypt_of_kat1 h
  show some (memRead (memWrite ready.mem 0x3000 (encrypted ready).1) 0x3000 4,
    tagRegister (encrypted ready).2 4) = _
  rw [e]
  decide

/-- PRG-2 before its DECRYPT of step 2: the ciphertext as the input and the tag `tag`, with other bytes in the
output range. -/
def received (tag : Quad) : State :=
  { ready with
    mem := memWrite (memWrite ready.mem 0x2000 [0x71, 0x62, 0x01, 0x5b]) 0x3000 [1, 2, 3, 4]
    tag := tag }

theorem recovered_of_kat1 (h : aesKat1) (tag : Quad) :
    recovered (received tag) = [0x20, 0x21, 0x22, 0x23]
      ∧ expectedTag (received tag) = [0x4d, 0xac, 0x25, 0x5d] := by
  have hi : inBytes (received tag) = [0x71, 0x62, 0x01, 0x5b] := by
    show inBytes (received Quad.zero) = _
    decide
  have ha : aadBytes (received tag) = [0, 1, 2, 3, 4, 5, 6, 7] := by
    show aadBytes (received Quad.zero) = _
    decide
  have hn : opNonce (received tag) = nonceN7 := by
    show opNonce ready = _
    decide
  have hk : (received tag).keyint = keyK16 := rfl
  have ht : opT (received tag) = 4 := by
    show opT ready = _
    decide
  have hr : recovered (received tag) = [0x20, 0x21, 0x22, 0x23] := by
    have e : ctrCrypt keyK16 nonceN7 [0x71, 0x62, 0x01, 0x5b]
        = xorBytes [0x71, 0x62, 0x01, 0x5b] (msb 4 (cipherE keyK16
            [0x07, 0x10, 0x11, 0x12, 0x13, 0x14, 0x15, 0x16, 0, 0, 0, 0, 0, 0, 0, 0x01])) ++ [] := by rfl
    rw [recovered, hi, hn, hk, e, h.2.2.2.2]
    decide
  refine ⟨hr, ?_⟩
  rw [expectedTag, hr, ha, hn, hk, ht]
  exact congrArg Prod.snd (ccmEncrypt_of_kat1 h)

theorem decrypt_runs {s : State} (h1 : firstError (messageChecks s) = none) (h2 : overlapDefined s = true)
    (h3 : readsAdmitted s = true) (h4 : s.platform.cipherCanFail = false) :
    exec .decrypt s = if tagsMatch s = true then releasePlaintext s else zeroOutput s := by
  simp [exec, execDecrypt, validated_pass h1, h2, h3, withCalls_ok (cipherFails_of_cannot_fail h4),
    afterCalls_of_cannot_fail h4]

/-- PRG-2, steps 2 to 4. -/
theorem test_decrypt_known_answer (h : aesKat1) :
    ((nextOf (exec .decrypt (received ⟨0x5D25AC4D, 0, 0, 0⟩))).map fun t =>
      (memRead t.mem 0x3000 4, t.status)) = some ([0x20, 0x21, 0x22, 0x23], 0x00000001) := by
  obtain ⟨hr, ht⟩ := recovered_of_kat1 h ⟨0x5D25AC4D, 0, 0, 0⟩
  rw [decrypt_runs (by decide) (by decide) (by decide) (by decide),
    if_pos (by rw [tagsMatch, ht]; decide), releasePlaintext, withCalls_ok (by decide),
    afterCalls_of_cannot_fail (by decide), if_neg (by decide), hr]
  decide

/-- PRG-2, steps 6 to 9. -/
theorem test_decrypt_tampered (h : aesKat1) :
    ((nextOf (exec .decrypt (received ⟨0x5D25AC4C, 0, 0, 0⟩))).map fun t =>
      (memRead t.mem 0x3000 4, t.status)) = some ([0, 0, 0, 0], 0x00000063) := by
  obtain ⟨-, ht⟩ := recovered_of_kat1 h ⟨0x5D25AC4C, 0, 0, 0⟩
  rw [decrypt_runs (by decide) (by decide) (by decide) (by decide),
    if_neg (by rw [tagsMatch, ht]; decide)]
  decide

/-! ### Every statement with hypotheses has a case that meets them -/

theorem test_meets_StepRunsTheDecodedCommand :
    (doing ready (command .decrypt)).bus = .write 32 0x000 9 :: [] ∧ decode 9 = .command .decrypt := by decide

/-- Opcodes 0x0 and 0xA, and a reserved bit, at the edges of the illegal words. -/
theorem test_meets_IllegalCommandChangesStatusAlone :
    (doing ready (.write 32 0x000 0x10)).bus = .write 32 0x000 0x10 :: [] ∧ cmdReserved 0x10 ≠ 0
      ∧ (cmdOpcode 0x0).toNat = 0 ∧ 0xA ≤ (cmdOpcode 0xA).toNat
      ∧ statusKeyset ready.status = BitVec.ofNat 1 (keysetBit ready.ctx) := by decide

/-- The edges of the reserved offsets. -/
theorem test_meets_RegisterWindowMap :
    regAt 0x008 = some .ctrl ∧ regAt 0x00C = none ∧ regAt 0x010 = some (.key 0)
      ∧ regAt 0x0AC = some (.ctr0 3) ∧ regAt 0x0B0 = none ∧ regAt 0xFFC = none := by decide

theorem test_meets_OddRegisterAccessIsRefused :
    (doing ready (.write 16 0x008 1)).bus = .write 16 0x008 1 :: [] ∧ 16 ≠ 32
      ∧ (doing ready (.read 32 0x00A)).bus = .read 32 0x00A :: [] ∧ (0x00A : BitVec 12).toNat % 4 ≠ 0 := by
  decide

/-- One case for each clause. -/
theorem test_meets_ReservedAndOneWayRegisters :
    ((doing ready (.read 32 0x00C)).bus = .read 32 0x00C :: [] ∧ regAt 0x00C = none)
      ∧ ((doing ready (.read 32 0x02C)).bus = .read 32 0x02C :: [] ∧ regAt 0x02C = some (.key 7))
      ∧ ((doing ready (.write 32 0x004 1)).bus = .write 32 0x004 1 :: [] ∧ regAt 0x004 = some .status)
      ∧ State.Inv ready
      ∧ ((doing ready (.write 32 0x008 1)).bus = .write 32 0x008 1 :: [] ∧ regAt 0x008 = some .ctrl) := by
  decide

theorem test_meets_RegisterWriteStoresTheValue :
    (doing ready (wr .ctrl 1)).bus = .write 32 (Reg.windowOffset .ctrl) 1 :: []
      ∧ (doing ready (wr (.tag 3) 1)).bus = .write 32 (Reg.windowOffset (.tag 3)) 1 :: [] := by decide

theorem test_meets_KeyStagingWriteReplacesFourBytes :
    (doing ready (wr (.key 7) 1)).bus = .write 32 (Reg.windowOffset (.key 7)) 1 :: [] := by decide

theorem test_meets_RegisterGroupPacking : keyK16.length = 16 := by decide

/-- A store that ends at the top of memory, and one byte past it. -/
theorem test_meets_HostStoreWritesItsBytesOnly :
    ready.mem.wf = true
      ∧ (doing ready (.store 0xFFFFFFFFFFFFFFFF [1])).bus = .store 0xFFFFFFFFFFFFFFFF [1] :: []
      ∧ (0xFFFFFFFFFFFFFFFF : BitVec 64).toNat + [(1 : Byte)].length = 2 ^ 64
      ∧ (0xFFFFFFFFFFFFFFFF : BitVec 64).toNat + [(1 : Byte), 2].length = 2 ^ 64 + 1 := by decide

theorem test_meets_EngineWithoutAnActionStays : State.reset.bus = [] := by decide

theorem test_meets_ResetValues : (doing ready .reset).bus = .reset :: [] := by decide

/-- `ready` on a platform whose cipher fails at its call number `good`, counted from 0. -/
def failing (good : Nat) : State :=
  { ready with platform := { Platform.permissive with cipherCanFail := true }, oracle := [good] }

/-- `ready` on a platform that refuses one byte of the input. -/
def refusing : State := { ready with platform := { Platform.permissive with refusesRead := [⟨0x2003, 1⟩] } }

/-- The buffers of `ready` lie apart (20_memory.md R70). -/
theorem ready_placed : buffersPlaced ready := (overlapDefined_iff _).1 (by decide)

theorem test_meets_ResetDuringACommand :
    ready.mem.wf = true ∧ (doing ready (.resetDuring 9)).bus = .resetDuring 9 :: []
      ∧ buffersPlaced (doing ready (.resetDuring 9))
      ∧ ∃ t, step (doing ready (.resetDuring 9)) = .next t :=
  ⟨by decide, by decide, ready_placed, _, rfl⟩

/-- 45_context.md R206, 70_reset_and_hazards.md R252: where a read of the first pass is refused, or its last
call of `E` fails, a reset during DECRYPT leaves only old bytes and zeros, whatever TAG holds. -/
theorem test_reset_before_the_comparison :
    (∀ q, cutOutput .decrypt { refusing with tag := q } = abortOutDecrypt false { refusing with tag := q })
      ∧ ∀ q, cutOutput .decrypt { failing 4 with tag := q } = abortOutDecrypt false { failing 4 with tag := q } := by
  refine ⟨fun q => ?_, fun q => ?_⟩
  · rw [cutOutput, show comparisonMade { refusing with tag := q } = false from
      show comparisonMade refusing = false by decide, Bool.false_and]
  · rw [cutOutput, show comparisonMade { failing 4 with tag := q } = false from
      show comparisonMade (failing 4) = false by decide, Bool.false_and]

theorem test_meets_EveryStepKeepsTheInvariant :
    State.Inv (doing ready (command .encrypt)) ∧ ∃ t, step (doing ready (command .encrypt)) = .next t :=
  ⟨by decide, _, rfl⟩

/-- N13: `10 11 ... 1c` (95_test_vectors.md). -/
def nonceN13 : Bytes := nonceN7 ++ [0x17, 0x18, 0x19, 0x1a, 0x1b, 0x1c]

theorem test_meets_B0Layout :
    7 ≤ nonceN7.length ∧ nonceN13.length ≤ 13 ∧ 4 ∈ [4, 6, 8, 10, 12, 14, 16]
      ∧ 2 ^ 64 - 1 < 2 ^ (8 * (15 - nonceN7.length)) ∧ 65535 < 2 ^ (8 * (15 - nonceN13.length)) := by decide

/-- V-FMT-2. -/
theorem test_blocks_at_the_largest_values :
    blockB0 nonceN13 16 0 65535
        = [0x39, 0x10, 0x11, 0x12, 0x13, 0x14, 0x15, 0x16, 0x17, 0x18, 0x19, 0x1a, 0x1b, 0x1c, 0xff, 0xff]
      ∧ blockCtr nonceN13 256
        = [0x01, 0x10, 0x11, 0x12, 0x13, 0x14, 0x15, 0x16, 0x17, 0x18, 0x19, 0x1a, 0x1b, 0x1c, 0x01, 0x00] := by
  decide

theorem test_meets_CounterBlockLayout :
    7 ≤ nonceN7.length ∧ nonceN13.length ≤ 13 ∧ 65535 < 2 ^ (8 * (15 - nonceN13.length)) := by decide

/-- V-FMT-6: both edges of each size. -/
theorem test_meets_AadHeaderByMagnitude :
    aadHeader 0 = [] ∧ aadHeader 1 = [0x00, 0x01] ∧ aadHeader 0xFEFF = [0xfe, 0xff]
      ∧ aadHeader 0xFF00 = [0xff, 0xfe, 0x00, 0x00, 0xff, 0x00]
      ∧ aadHeader (2 ^ 32 - 1) = [0xff, 0xfe, 0xff, 0xff, 0xff, 0xff]
      ∧ aadHeader (2 ^ 32) = [0xff, 0xff, 0x00, 0x00, 0x00, 0x01, 0x00, 0x00, 0x00, 0x00]
      ∧ aadHeader (2 ^ 64 - 1) = [0xff, 0xff, 0xff, 0xff, 0xff, 0xff, 0xff, 0xff, 0xff, 0xff] := by decide

/-- V-FMT-7: an empty AAD, and AADs on both sides of a block boundary. -/
theorem test_meets_FormattedStringsArePadded :
    fmtAad [] = [] ∧ (fmtAad (zeros 14)).length = 16 ∧ (fmtAad (zeros 15)).length = 32
      ∧ (fmtMsg (zeros 16)).length = 16 ∧ (fmtMsg (zeros 17)).length = 32 := by decide

theorem test_meets_B0IsNeverACounterBlock :
    nonceN7.length = nonceN7.length ∧ 7 ≤ nonceN7.length ∧ nonceN7.length ≤ 13
      ∧ 4 ∈ [4, 6, 8, 10, 12, 14, 16] := by decide

theorem test_meets_MacInputBlockCount : 7 ≤ nonceN7.length ∧ nonceN13.length ≤ 13 := by decide

theorem test_meets_MessageCountersFitTheirField :
    65535 < 2 ^ (8 * (15 - 13)) ∧ nblocks 65535 = 2 ^ 12 ∧ 2 ^ 64 - 1 < 2 ^ (8 * (15 - 7)) := by decide

theorem test_meets_CounterIncrementStaysInItsField :
    7 ≤ nonceN13.length ∧ nonceN13.length ≤ 13 ∧ 0 < 2 ^ (8 * (15 - nonceN13.length))
      ∧ 65535 < 2 ^ (8 * (15 - nonceN13.length)) := by decide

theorem test_meets_FormatWritesB0AndCtr0 :
    ready.ctx = .keySet ∧ nonceReady ready ∧ tagReady ready ∧ lengthReady ready := by decide

theorem test_meets_CbcMacChainsItsBlocks :
    keyK16.length = 16 ∧ 0 < keyK16.length ∧ keyK16.length % 16 = 0 ∧ (zeros 16).length = 16 := by decide

theorem test_meets_RawmacWritesTheRawMac :
    rawmacReady ready ∧ cipherFails (macBlocks (opA ready) (opM ready)) ready = false := by decide

theorem test_meets_CtrTransform : 16 < (zeros 17).length ∧ (zeros 17).length = (nonceN13 ++ zeros 4).length := by
  decide

/-- The largest counter of the narrowest field. -/
theorem test_meets_KeystreamWritesTheBlockOfItsCounter :
    ({ ready with ctrl := 0x00000D05, ctrv := ⟨65535, 0⟩ } : State).ctx = .keySet
      ∧ nonceReady { ready with ctrl := 0x00000D05, ctrv := ⟨65535, 0⟩ }
      ∧ opI { ready with ctrl := 0x00000D05, ctrv := ⟨65535, 0⟩ } = 2 ^ (8 * (15 - 13)) - 1
      ∧ cipherFails 1 { ready with ctrl := 0x00000D05, ctrv := ⟨65535, 0⟩ } = false := by decide

theorem test_meets_TagDependsOnItsFirstBytes :
    keyK16.length = 16 ∧ (keyK16.take 4 ++ zeros 12).length = 16
      ∧ msb 4 keyK16 = msb 4 (keyK16.take 4 ++ zeros 12) := by decide

theorem test_meets_ComparisonIsEqualityOfTheTags :
    4 ≤ nonceN7.length ∧ ctEqual nonceN7 nonceN13 7 = true ∧ ctEqual nonceN7 [0x10, 0x11, 0x12, 0] 4 = false := by
  decide

theorem test_meets_MaskmacWritesTheTag :
    ready.ctx = .keySet ∧ nonceReady ready ∧ tagReady ready ∧ cipherFails 1 ready = false := by decide

/-- One case for each clause. -/
theorem test_meets_VerifyReportsTheComparison :
    State.reset.ctx ≠ .keySet ∧ ¬tagReady { ready with ctrl := 0x00000005 } ∧ tagReady ready
      ∧ msb (opT ready) ready.data.bytes = msb (opT ready) ready.tag.bytes
      ∧ msb (opT ready) ready.data.bytes
        ≠ msb (opT ready) ({ ready with tag := ⟨0x80000000, 0, 0, 0⟩ } : State).tag.bytes := by decide

/-- Also for the statements with the same premises: EncryptWritesCiphertextAndTag,
RawmacThenMaskmacGivesTheTagOfEncrypt. -/
theorem test_meets_EncryptWritesCiphertextAndTag :
    messageValid ready ∧ buffersPlaced ready ∧ messageAdmitted ready
      ∧ cipherFails (macBlocks (opA ready) (opM ready) + 1 + nblocks (opM ready)) ready = false
      ∧ ready.platform.cipherCanFail = false :=
  ⟨by decide, ready_placed, by decide, by decide, by decide⟩

theorem test_meets_EncryptChangesOnlyItsOutput :
    ready.mem.wf = true ∧ ∃ t, exec .encrypt ready = .next t ∧ statusErr t.status = 0 :=
  ⟨by decide, _, rfl, rfl⟩

theorem test_meets_SetkeyLoadsOrKeepsTheKey :
    opK { ready with ctrl := 0x00100000 } ∈ [16, 24, 32] ∧ opK { ready with ctrl := 0x00200000 } ∈ [16, 24, 32]
      ∧ opK { ready with ctrl := 0x00210000 } ∉ [16, 24, 32] := by decide

theorem test_meets_NoCommandRunsWithoutAKey :
    Instr.verify ≠ .setkey ∧ Instr.verify ≠ .free ∧ State.reset.ctx ≠ .keySet := by decide

/-- One case for each clause beyond those of SETKEY and FREE. -/
theorem test_meets_ContextStateMachine :
    (∃ t, exec .keystream ready = .next t) ∧ (∃ t, exec .keystream State.reset = .next t)
      ∧ State.reset.ctx = .uninitialized ∧ decode 0 = .rejected .reservedOpcode
      ∧ (doing ready (.write 32 0x000 0)).bus = .write 32 0x000 0 :: []
      ∧ (doing ready .reset).bus = .reset :: [] :=
  ⟨⟨_, rfl⟩, ⟨_, rfl⟩, by decide, by decide, by decide, by decide⟩

/-- V-ERR-3: a case for the decoding and one for each later step of the table. -/
theorem test_meets_FirstFailedCheckIsReported :
    decode 0x18 = .rejected .reservedBits
      ∧ firstFailing .encrypt { State.reset with ctrl := 0x00200605 } = some .notInitialized
      ∧ firstFailing .setkey { State.reset with ctrl := 0x00140D10 } = some .invalidKeyLength
      ∧ firstFailing .encrypt { ready with ctrl := 0x00200605 } = some .invalidNonceLength
      ∧ firstFailing .encrypt { ready with ctrl := 0x00200D05, mlen := ⟨65536, 0⟩ } = some .invalidTagLength
      ∧ firstFailing .encrypt { ready with ctrl := 0x00200D10, mlen := ⟨65536, 0⟩ } = some .messageTooLong
      ∧ firstFailing .keystream { ready with ctrl := 0x00000D05, ctrv := ⟨65536, 0⟩ } = some .messageTooLong
      ∧ firstFailing .encrypt { ready with mlen := ⟨16, 0⟩, inaddr := ⟨0xFFFFFFF8, 0xFFFFFFFF⟩ }
        = some .bufferFault := by decide

theorem test_meets_CommandsStopOnlyOnUndefinedOverlap :
    messageValid { ready with outaddr := ⟨0x2003, 0⟩ } ∧ ¬buffersPlaced { ready with outaddr := ⟨0x2003, 0⟩ } :=
  ⟨by decide, by rw [← overlapDefined_iff]; decide⟩

theorem test_meets_EmptyBuffersIgnoreTheirAddress :
    opA { ready with alen := Pair.zero } = 0 ∧ opM { ready with mlen := Pair.zero } = 0
      ∧ statusAfter .encrypt { ready with mlen := Pair.zero, outaddr := ⟨0xFFFFFFFF, 0xFFFFFFFF⟩ }
        = some 0x00000001 := by decide

/-- One case for each clause; the last of RAWMAC's three calls fails. -/
theorem test_meets_AbortsOfRegisterCommands :
    (refusing.ctx = .keySet ∧ nonceReady refusing ∧ tagReady refusing ∧ lengthReady refusing
        ∧ rangeReady (aadAddr refusing) (opA refusing) ∧ rangeReady (inAddr refusing) (opM refusing)
        ∧ ¬(admitted refusing .read (aadAddr refusing) (opA refusing)
          ∧ admitted refusing .read (inAddr refusing) (opM refusing)))
      ∧ (rawmacReady (failing 2) ∧ cipherFails (macBlocks (opA (failing 2)) (opM (failing 2))) (failing 2) = true)
      ∧ (opI (failing 0) < 2 ^ (8 * (15 - opN (failing 0))) ∧ cipherFails 1 (failing 0) = true)
      ∧ tagReady (failing 0) := by decide

/-- `ready` on a platform that refuses one byte of the output, and whose cipher can fail but does not. -/
def unwritable : State :=
  { ready with platform := { refusesRead := [], refusesWrite := [⟨0x3000, 1⟩], cipherCanFail := true } }

/-- One case for each clause on reads and on the first pass; the last of its five calls fails. The clauses on
what comes after it are met in test_meets_AbortCodesOfMessageCommands_late. -/
theorem test_meets_AbortCodesOfMessageCommands :
    (messageValid refusing ∧ buffersPlaced refusing
        ∧ ¬(admitted refusing .read (aadAddr refusing) (opA refusing)
          ∧ admitted refusing .read (inAddr refusing) (opM refusing)))
      ∧ (messageValid (failing 4) ∧ buffersPlaced (failing 4)
        ∧ admitted (failing 4) .read (aadAddr (failing 4)) (opA (failing 4))
        ∧ admitted (failing 4) .read (inAddr (failing 4)) (opM (failing 4))
        ∧ cipherFails (macBlocks (opA (failing 4)) (opM (failing 4)) + 1 + nblocks (opM (failing 4))) (failing 4)
          = true)
      ∧ (messageValid unwritable ∧ buffersPlaced unwritable ∧ firstPassDone unwritable
        ∧ ¬admitted unwritable .write (outAddr unwritable) (opM unwritable)) :=
  ⟨⟨by decide, ready_placed, by decide⟩, ⟨by decide, ready_placed, by decide, by decide, by decide⟩,
    ⟨by decide, ready_placed, by decide, by decide⟩⟩

/-- `ready` with the expected tag of its input in TAG. -/
def matching : State := { ready with tag := tagRegister (expectedTag ready) 4 }

/-- `ready` with every byte of the expected tag inverted in TAG. -/
def unequal : State := { ready with tag := tagRegister ((expectedTag ready).map fun b => ~~~b) 4 }

/-- `matching` holds the expected tag, `unequal` another one, whatever `E` is. -/
theorem tags_of_matching_and_unequal :
    tagsEqual matching ∧ ¬tagsEqual unequal ∧ tagsMatch unequal = false := by
  have hl : (expectedTag ready).length = 4 := by
    rw [expectedTag, ccmTag_length]
    decide
  have ht : ∀ q, opT { ready with tag := q } = 4 := by
    intro q
    show opT ready = 4
    decide
  have hs : suppliedTag unequal = (expectedTag ready).map fun b => ~~~b := by
    rw [suppliedTag, unequal, ht, tagRegister, quad_bytes_ofBytes (by simp [hl]), msb,
      List.take_append_of_le_length (by simp [hl]), List.take_of_length_le (by simp [hl])]
  refine ⟨?_, ?_, ?_⟩
  · rw [tagsEqual, ← expectedTag_eq_tagOver, matching, ht, tagRegister, quad_bytes_ofBytes (by simp [hl]), msb,
      List.take_append_of_le_length (by simp [hl]), List.take_of_length_le (by simp [hl])]
    rfl
  · rw [tagsEqual, ← expectedTag_eq_tagOver]
    show ¬expectedTag ready = suppliedTag unequal
    rw [hs]
    intro h
    have h0 := congrArg (fun l => l.getD 0 0) h
    rcases hT : expectedTag ready with _ | ⟨b, rest⟩
    · simp [hT] at hl
    · simp [hT] at h0
  · show ctEqual (expectedTag ready) (suppliedTag unequal) 4 = false
    rw [hs]
    generalize expectedTag ready = tag at hl
    match tag, hl with
    | [a, b, c, d], _ => simp [ctEqual, List.range_succ]

theorem test_meets_DecryptReleasesThePlaintextOnAMatch :
    messageValid matching ∧ buffersPlaced matching ∧ messageAdmitted matching
      ∧ cipherFails (macBlocks (opA matching) (opM matching) + 1 + nblocks (opM matching)) matching = false
      ∧ cipherFails (nblocks (opM matching))
          (afterCalls (macBlocks (opA matching) (opM matching) + 1 + nblocks (opM matching)) matching) = false
      ∧ tagsEqual matching :=
  ⟨by decide, ready_placed, by decide, by decide, by decide, tags_of_matching_and_unequal.1⟩

/-- DECRYPT's second pass fails at its only call, or meets a refused write on a platform whose cipher can
fail, or the zeroing meets one. -/
theorem test_meets_AbortCodesOfMessageCommands_late :
    (firstPassDone { failing 5 with tag := matching.tag } ∧ tagsEqual { failing 5 with tag := matching.tag }
        ∧ cipherFails (nblocks (opM (failing 5)))
            (afterCalls (macBlocks (opA (failing 5)) (opM (failing 5)) + 1 + nblocks (opM (failing 5)))
              { failing 5 with tag := matching.tag }) = true)
      ∧ (firstPassDone { unwritable with tag := matching.tag } ∧ tagsEqual { unwritable with tag := matching.tag }
        ∧ cipherFails (nblocks (opM unwritable))
            (afterCalls (macBlocks (opA unwritable) (opM unwritable) + 1 + nblocks (opM unwritable))
              { unwritable with tag := matching.tag }) = false)
      ∧ (firstPassDone { unwritable with tag := unequal.tag } ∧ ¬tagsEqual { unwritable with tag := unequal.tag }
        ∧ ¬admitted { unwritable with tag := unequal.tag } .write (outAddr unwritable) (opM unwritable)) :=
  ⟨⟨by decide, tags_of_matching_and_unequal.1, by decide⟩,
    ⟨by decide, tags_of_matching_and_unequal.1, by decide⟩,
    ⟨by decide, tags_of_matching_and_unequal.2.1, by decide⟩⟩

theorem test_meets_DecryptZeroesItsOutputOnAMismatch :
    messageValid unequal ∧ buffersPlaced unequal ∧ messageAdmitted unequal
      ∧ cipherFails (macBlocks (opA unequal) (opM unequal) + 1 + nblocks (opM unequal)) unequal = false
      ∧ ¬tagsEqual unequal
      ∧ unequal.mem.wf = true
      ∧ ∃ t, exec .decrypt unequal = .next t ∧ (statusErrcode t.status).toNat = 6 := by
  refine ⟨by decide, ready_placed, by decide, by decide, tags_of_matching_and_unequal.2.1, by decide,
    raise .authenticationFailed { unequal with mem := memWrite unequal.mem 0x3000 (zeros 4) }, ?_, by decide⟩
  show (if tagsMatch unequal = true then releasePlaintext unequal else zeroOutput unequal) = _
  rw [if_neg (by rw [tags_of_matching_and_unequal.2.2]; decide)]
  rfl

theorem test_meets_DecryptNeverReleasesUnverifiedPlaintext :
    refusing.mem.wf = true ∧ ∃ t, exec .decrypt refusing = .next t := ⟨by decide, _, rfl⟩

theorem test_meets_DecryptionUndoesEncryption :
    keyK16.length ∈ [16, 24, 32] ∧ 7 ≤ nonceN13.length ∧ nonceN13.length ≤ 13
      ∧ 16 ∈ [4, 6, 8, 10, 12, 14, 16] ∧ ([] : Bytes).length < 2 ^ 64
      ∧ (zeros 17).length < 2 ^ (8 * (15 - nonceN13.length)) := by decide

/-- `ready` with the output in place of the input. -/
def inPlace : State := { ready with outaddr := ⟨0x2000, 0⟩ }

theorem test_meets_InPlaceRoundTripRestoresMemory :
    inPlace.mem.wf = true ∧ messageValid inPlace ∧ inAddr inPlace = outAddr inPlace ∧ buffersPlaced inPlace
      ∧ messageAdmitted inPlace ∧ inPlace.platform.cipherCanFail = false :=
  ⟨by decide, by decide, by decide, (overlapDefined_iff _).1 (by decide), by decide, by decide⟩

/-- A read of STATUS, of a reserved offset and of a key register. -/
theorem test_meets_NoReadShowsTheKey :
    (doing ready (rd .status)).bus = .read 32 (Reg.windowOffset .status) :: []
      ∧ shownValue (doing ready (rd .status)) .status = 1
      ∧ (doing ready (.read 32 0x00C)).bus = .read 32 0x00C :: [] ∧ regAt 0x00C = none
      ∧ (0x010 : BitVec 12).toNat % 4 = 0 ∧ (doing ready (.read 32 0x010)).bus = .read 32 0x010 :: [] := by decide

theorem test_meets_KeylessActionsRevealNothingOfTheKey :
    sameButKey (doing ready (command .setkey)) { doing ready (command .setkey) with keyint := zeros 32 }
      ∧ ∀ act ∈ (doing ready (command .setkey)).bus.head?, keyless act := by
  refine ⟨rfl, ?_⟩
  intro act h
  cases h
  intro _ i hi
  cases hi
  simp [callsCipher]

/-- The largest value of each field of CTRL. -/
theorem test_meets_OperandsComeFromTheirFields :
    (doing ready (.write 32 0x008 (BitVec.ofNat 32 (31 + 2 ^ 8 * 15 + 2 ^ 16 * 63)))).bus
        = .write 32 0x008 (BitVec.ofNat 32 (31 + 2 ^ 8 * 15 + 2 ^ 16 * 63)) :: []
      ∧ 31 < 2 ^ 5 ∧ 15 < 2 ^ 4 ∧ 63 < 2 ^ 6 ∧ 4 * 1 + 2 < opN ready ∧ 4 * 0 + 3 < opT ready
      ∧ 4 * 3 + 3 < opK ready := by decide

/-- A string that ends at the top of memory. -/
theorem test_meets_BuffersLieInAddressOrder :
    ready.mem.wf = true ∧ (2 ^ 64 - 2) + [(1 : Byte), 2].length ≤ 2 ^ 64 ∧ 3 < opM ready := by decide

theorem test_meets_MessageCommandsComputeCcm :
    messageValid ready ∧ buffersPlaced ready ∧ messageAdmitted ready ∧ ready.platform.cipherCanFail = false :=
  ⟨by decide, ready_placed, by decide, by decide⟩

/-- A case for each clause: no failure listed, the calls just before the failing one, and up to it. -/
theorem test_meets_PlatformParametersMeanWhatTheyList :
    (∃ sp ∈ refusing.platform.refusesRead, sp.base ≤ 0x2003 ∧ 0x2003 < sp.base + sp.size)
      ∧ (∃ sp ∈ unwritable.platform.refusesWrite, sp.base ≤ 0x3000 ∧ 0x3000 < sp.base + sp.size)
      ∧ ready.platform.cipherCanFail = false
      ∧ (unwritable.platform.cipherCanFail = true ∧ unwritable.oracle = [])
      ∧ ((failing 4).platform.cipherCanFail = true ∧ (failing 4).oracle = 4 :: [] ∧ 4 ≤ 4 ∧ 4 < 5) := by
  decide
end

section
/-!
PROOFS. The register window (10_state.md): what a step makes of a register access, what the write of a
register stores, and the packing of byte strings in registers.
-/
namespace Sys2Proof.Machine

/-! ### What a step makes of a register access -/

theorem fetch_cons {s : State} {act : HostAction} {rest : List HostAction} (hbus : s.bus = act :: rest) :
    fetch s = perform act { s with bus := rest, reply := none } := by
  rw [fetch, hbus]

theorem step_of_fetch_done {s : State} {o : Out} (h : fetch s = .done o) : step s = o := by
  rw [step, h]

/-- A register's value lies outside the fields that `fetch` changes. -/
@[simp] theorem readReg_fetched (r : Reg) (s : State) (rest : List HostAction) (reply : Option Word) :
    readReg r { s with bus := rest, reply := reply } = readReg r s := by
  cases r <;> rfl

@[simp] theorem readOffset_fetched (off : BitVec 12) (s : State) (rest : List HostAction)
    (reply : Option Word) : readOffset off { s with bus := rest, reply := reply } = readOffset off s := by
  unfold readOffset
  cases regAt off with
  | none => rfl
  | some r => exact readReg_fetched r s rest reply

/-- A step at an aligned 32-bit read answers the register's value and changes nothing else. -/
theorem step_read {s : State} {off : BitVec 12} {rest : List HostAction}
    (hbus : s.bus = .read 32 off :: rest) (ha : off.toNat % 4 = 0) :
    step s = .next { s with bus := rest, reply := some (readOffset off s) } := by
  apply step_of_fetch_done
  rw [fetch_cons hbus, perform, hostRead_aligned ha, readOffset_fetched]

/-- A step at an aligned 32-bit write outside CMD writes the register. -/
theorem step_write {s : State} {off : BitVec 12} {v : Word} {rest : List HostAction}
    (hbus : s.bus = .write 32 off v :: rest) (ha : off.toNat % 4 = 0) (hcmd : regAt off ≠ some .cmd) :
    step s = .next (writeOffset off v { s with bus := rest, reply := none }) := by
  apply step_of_fetch_done
  rw [fetch_cons hbus, perform, hostWrite_register ha hcmd]

theorem writeOffset_of_regAt {off : BitVec 12} {r : Reg} (h : regAt off = some r) (v : Word) (s : State) :
    writeOffset off v s = writeReg r v s := by
  rw [writeOffset, h]

theorem writeOffset_reserved {off : BitVec 12} (h : regAt off = none) (v : Word) (s : State) :
    writeOffset off v s = s := by
  rw [writeOffset, h]

theorem readOffset_of_regAt {off : BitVec 12} {r : Reg} (h : regAt off = some r) (s : State) :
    readOffset off s = readReg r s := by
  rw [readOffset, h]

theorem readOffset_reserved {off : BitVec 12} (h : regAt off = none) (s : State) : readOffset off s = 0 := by
  rw [readOffset, h]

/-- A step at a write of a register other than CMD, by the register's name. -/
theorem step_write_windowOffset {s : State} {r : Reg} {v : Word} {rest : List HostAction}
    (hbus : s.bus = .write 32 r.windowOffset v :: rest) (hcmd : r ≠ .cmd) :
    step s = .next (writeReg r v { s with bus := rest, reply := none }) := by
  rw [step_write hbus (windowOffset_aligned r) (by simpa using hcmd),
    writeOffset_of_regAt (regAt_windowOffset r)]

/-! ### Refused accesses -/

/-- An access that is narrow, wide or misaligned has no meaning (10_state.md R25). -/
theorem accessRefusal_odd {bits : Nat} {off : BitVec 12} (h : bits ≠ 32 ∨ off.toNat % 4 ≠ 0) :
    ∃ r, accessRefusal bits off = some r := by
  by_cases hw : bits = 32
  · have ha : off.toNat % 4 ≠ 0 := h.resolve_left (not_not_intro hw)
    exact ⟨.registerAccessMisaligned, by simp [accessRefusal, accessWidthOK, accessAligned, hw, ha]⟩
  · exact ⟨.registerAccessWidth, by simp [accessRefusal, accessWidthOK, hw]⟩

theorem step_write_refused {s : State} {bits : Nat} {off : BitVec 12} {v : Word} {rest : List HostAction}
    {r : Refusal} (hbus : s.bus = .write bits off v :: rest) (h : accessRefusal bits off = some r) :
    step s = .refused r := by
  apply step_of_fetch_done
  rw [fetch_cons hbus, perform, hostWrite, h]

theorem step_read_refused {s : State} {bits : Nat} {off : BitVec 12} {rest : List HostAction}
    {r : Refusal} (hbus : s.bus = .read bits off :: rest) (h : accessRefusal bits off = some r) :
    step s = .refused r := by
  apply step_of_fetch_done
  rw [fetch_cons hbus, perform, hostRead, h]

/-- Settles O6: the width or the alignment refuses the access before anything is read or written. -/
theorem oddRegisterAccessIsRefused : Obligations.OddRegisterAccessIsRefused := by
  intro s rest bits off v hodd hbus
  obtain ⟨r, hr⟩ := accessRefusal_odd hodd
  rcases hbus with hw | hrd
  · exact ⟨r, step_write_refused hw hr⟩
  · exact ⟨r, step_read_refused hrd hr⟩

/-! ### What the write of a register stores -/

/-- A register that the host reads and writes, CTRL apart, holds the value written to it whole
(10_state.md R28). -/
theorem readReg_writeReg_same {r : Reg} (hcmd : r ≠ .cmd) (hstatus : r ≠ .status) (hctrl : r ≠ .ctrl)
    (hkey : ∀ i, r ≠ .key i) (hb0 : ∀ i, r ≠ .b0 i) (hctr0 : ∀ i, r ≠ .ctr0 i) (v : Word) (s : State) :
    readReg r (writeReg r v s) = v := by
  cases r with
  | cmd => exact absurd rfl hcmd
  | status => exact absurd rfl hstatus
  | ctrl => exact absurd rfl hctrl
  | key i => exact absurd rfl (hkey i)
  | b0 i => exact absurd rfl (hb0 i)
  | ctr0 i => exact absurd rfl (hctr0 i)
  | nonce i | tag i | data i => exact quad_get_set _ i v
  | alen h | mlen h | aadaddr h | inaddr h | outaddr h | ctrv h => exact pair_get_set _ h v

/-- Only a write of KEYi reaches the key staging. -/
theorem writeReg_key_of_ne {r : Reg} (hkey : ∀ i, r ≠ .key i) (v : Word) (s : State) :
    (writeReg r v s).key = s.key := by
  cases r with
  | key i => exact absurd rfl (hkey i)
  | _ => rfl

/-- Settles O8: the step is `writeReg` on the state without the taken action; the other registers and
fields follow from the laws of `writeReg`. -/
theorem registerWriteStoresTheValue : Obligations.RegisterWriteStoresTheValue := by
  intro s rest r v hbus
  constructor
  · rintro rfl
    exact step_write_windowOffset hbus (by decide)
  · intro hcmd hstatus hctrl hkey hb0 hctr0
    refine ⟨_, step_write_windowOffset hbus hcmd,
      readReg_writeReg_same hcmd hstatus hctrl hkey hb0 hctr0 _ _, fun r' hne => ?_,
      writeReg_key_of_ne hkey _ _, ?_⟩
    · rw [readReg_writeReg_ne hne, readReg_fetched]
    · simp

/-! ### Reserved bits -/

theorem not_ctrlMask : ~~~ctrlMask = 0xFFC0F0E0 := by decide

/-- CTRL's reserved bits are 0 after a write, whatever the value. -/
theorem and_ctrlMask_reserved (v : Word) : v &&& ctrlMask &&& 0xFFC0F0E0 = 0 := by
  rw [← not_ctrlMask, BitVec.and_assoc, BitVec.and_not_self]
  exact BitVec.and_zero

/-- The mask of STATUS's reserved bits covers no bit but 3:2 and 31:8 (10_state.md R30). -/
theorem bit_of_statusReserved :
    ∀ i < 32, (0xFFFFFF0C : Word).getLsbD i = true → (2 ≤ i ∧ i < 4) ∨ 8 ≤ i := by
  decide

/-- A bit inside a field that is 0 is 0. -/
theorem getLsbD_of_field_zero {w : Word} {start len i : Nat} (h : w.extractLsb' start len = 0)
    (hlo : start ≤ i) (hhi : i < start + len) : w.getLsbD i = false := by
  have hbit : (w.extractLsb' start len).getLsbD (i - start) = false := by rw [h]; simp
  rwa [BitVec.getLsbD_extractLsb', decide_eq_true (by omega), Bool.true_and,
    Nat.add_sub_cancel' hlo] at hbit

/-- STATUS's two reserved fields are 0 as one masked word. -/
theorem status_reserved_zero {w : Word} (hlow : statusReservedLow w = 0) (hhigh : statusReservedHigh w = 0) :
    w &&& 0xFFFFFF0C = 0 := by
  apply BitVec.eq_of_getLsbD_eq
  intro i hi
  rw [BitVec.getLsbD_and]
  cases hmask : (0xFFFFFF0C : Word).getLsbD i with
  | false => simp
  | true =>
    have hbit : w.getLsbD i = false := by
      rcases bit_of_statusReserved i hi hmask with ⟨h2, h4⟩ | h8
      · exact getLsbD_of_field_zero hlow h2 h4
      · exact getLsbD_of_field_zero hhigh h8 (by omega)
    simp [hbit]

/-! ### One-way registers and reserved offsets -/

/-- What the host cannot read reads 0 (10_state.md R26). -/
theorem readOffset_unreadable {off : BitVec 12}
    (h : regAt off = none ∨ regAt off = some .cmd ∨ ∃ i, regAt off = some (.key i)) (s : State) :
    readOffset off s = 0 := by
  rcases h with h | h | ⟨i, h⟩
  · exact readOffset_reserved h s
  · exact readOffset_of_regAt h s
  · exact readOffset_of_regAt h s

/-- What the host cannot write ignores the write (10_state.md R26). -/
theorem writeOffset_unwritable {off : BitVec 12}
    (h : regAt off = none ∨ regAt off = some .status ∨ (∃ i, regAt off = some (.b0 i))
      ∨ ∃ i, regAt off = some (.ctr0 i)) (v : Word) (s : State) :
    writeOffset off v s = s := by
  rcases h with h | h | ⟨i, h⟩ | ⟨i, h⟩
  · exact writeOffset_reserved h v s
  · exact writeOffset_of_regAt h v s
  · exact writeOffset_of_regAt h v s
  · exact writeOffset_of_regAt h v s

/-- Settles O7, clause by clause of R26. -/
theorem reservedAndOneWayRegisters : Obligations.ReservedAndOneWayRegisters := by
  intro s rest off v ha
  refine ⟨?read, ?ignored, ?reserved, ?ctrl⟩
  case read =>
    intro hbus hoff
    rw [step_read hbus ha, readOffset_unreadable hoff]
  case ignored =>
    intro hbus hoff
    have hcmd : regAt off ≠ some .cmd := by
      rcases hoff with h | h | ⟨i, h⟩ | ⟨i, h⟩ <;> simp [h]
    rw [step_write hbus ha hcmd, writeOffset_unwritable hoff]
  case reserved =>
    rintro ⟨⟨-, -, -, hlow, hhigh⟩, hctrl, -, -⟩
    exact ⟨not_ctrlMask ▸ hctrl, status_reserved_zero hlow hhigh⟩
  case ctrl =>
    intro hbus hoff
    refine ⟨_, step_write hbus ha (by simp [hoff]), ?_⟩
    rw [writeOffset_of_regAt hoff]
    have hstored : v &&& ctrlMask &&& ctrlMask = v &&& ctrlMask := by
      rw [BitVec.and_assoc, BitVec.and_self]
    exact ⟨and_ctrlMask_reserved v, hstored⟩

/-! ### Packing -/

/-- Byte `4i + j` of a group of four is byte `j` of register `i` (10_state.md R23). -/
theorem quad_bytes_getD (q : Quad) (i j : Fin 4) :
    q.bytes.getD (4 * i.val + j.val) 0 = wordByte (q.get i) j := by
  fin_cases i <;> fin_cases j <;> rfl

/-- Byte `4i + j` of the key staging is byte `j` of KEYi: each half of the staging is a group of four. -/
theorem keyStage_bytes_getD (k : KeyStage) (i : Fin 8) (j : Fin 4) :
    k.bytes.getD (4 * i.val + j.val) 0 = wordByte (k.get i) j := by
  rw [KeyStage.bytes, KeyStage.get]
  split
  case isTrue h =>
    rw [List.getD_append _ _ _ _ (by rw [quad_bytes_length]; omega)]
    exact quad_bytes_getD k.lo ⟨i.val, h⟩ j
  case isFalse h =>
    have hidx : 4 * i.val + j.val - 16 = 4 * (i.val - 4) + j.val := by omega
    rw [List.getD_append_right _ _ _ _ (by rw [quad_bytes_length]; omega), quad_bytes_length, hidx]
    exact quad_bytes_getD k.hi ⟨i.val - 4, by omega⟩ j

/-- Concatenation as arithmetic: the left word counts in units of the right word's range. -/
theorem toNat_append_eq_add {n m : Nat} (x : BitVec n) (y : BitVec m) :
    (x ++ y).toNat = 2 ^ m * x.toNat + y.toNat := by
  rw [BitVec.toNat_append, ← Nat.shiftLeft_add_eq_or_of_lt y.isLt, Nat.shiftLeft_eq, Nat.mul_comm]

/-- The word of four bytes as the sum of 10_state.md R23. -/
theorem wordAt_toNat (b : Bytes) (i : Nat) :
    (wordAt b i).toNat
      = (b.getD (4 * i) 0).toNat + 2 ^ 8 * (b.getD (4 * i + 1) 0).toNat
        + 2 ^ 16 * (b.getD (4 * i + 2) 0).toNat + 2 ^ 24 * (b.getD (4 * i + 3) 0).toNat := by
  rw [wordAt, toNat_append_eq_add, toNat_append_eq_add, toNat_append_eq_add]
  ring

theorem quad_ofBytes_get (b : Bytes) (i : Fin 4) : (Quad.ofBytes b).get i = wordAt b i := by
  fin_cases i <;> rfl

/-- Settles O10: bytes of registers, registers of bytes, the round trip, and the worked example of R23. -/
theorem registerGroupPacking : Obligations.RegisterGroupPacking := by
  refine ⟨quad_bytes_getD, keyStage_bytes_getD, fun b i _ => ?_, fun _ h => quad_bytes_ofBytes h, by decide⟩
  rw [quad_ofBytes_get, wordAt_toNat]

end Sys2Proof.Machine
end

section
/-!
PROOFS. The command word (30_encoding.md): which words are the encoding of a command, which words are
IllegalCommand, and what IllegalCommand does.
-/
namespace Sys2Proof.Machine

/-! ### The opcode map -/

theorem opcodeMap_opcode (i : Instr) : opcodeMap i.opcode = some i := by
  cases i <;> rfl

/-- The map assigns an opcode exactly to the command it numbers (30_encoding.md R82). -/
theorem opcodeMap_eq_some_iff {n : Nat} {i : Instr} : opcodeMap n = some i ↔ n = i.opcode := by
  constructor
  · intro h
    unfold opcodeMap at h
    split at h <;> cases h <;> rfl
  · rintro rfl
    exact opcodeMap_opcode i

theorem opcode_range (i : Instr) : 1 ≤ i.opcode ∧ i.opcode ≤ 9 := by
  cases i <;> decide

/-- The opcodes the map leaves unassigned, among all numbers (30_encoding.md R82). -/
theorem opcodeMap_eq_none_iff {n : Nat} : opcodeMap n = none ↔ n = 0 ∨ 0xA ≤ n := by
  constructor
  · intro h
    by_contra hassigned
    have hlo : 1 ≤ n := by omega
    have hhi : n ≤ 9 := by omega
    interval_cases n <;> cases h
  · intro h
    refine Option.eq_none_iff_forall_ne_some.mpr fun i hi => ?_
    have hrange := opcode_range i
    rw [← opcodeMap_eq_some_iff.mp hi] at hrange
    omega

/-! ### The two fields of the word -/

/-- OPCODE and the reserved bits make up the whole word (10_state.md R29). -/
theorem cmdReserved_append_cmdOpcode (w : Word) : cmdReserved w ++ cmdOpcode w = w := by
  rw [cmdReserved, cmdOpcode, BitVec.extractLsb'_append_extractLsb'_eq_extractLsb' (by rfl)]
  exact BitVec.extractLsb'_eq_self

theorem word_ext_fields {v w : Word} (hreserved : cmdReserved v = cmdReserved w)
    (hopcode : (cmdOpcode v).toNat = (cmdOpcode w).toNat) : v = w := by
  rw [← cmdReserved_append_cmdOpcode v, ← cmdReserved_append_cmdOpcode w, hreserved,
    BitVec.eq_of_toNat_eq hopcode]

theorem wordRoundTrip (i : Instr) : Laws.WordRoundTrip.Statement i := by
  cases i with
  | setkey => exact Laws.WordRoundTrip.setkey
  | free => exact Laws.WordRoundTrip.free
  | format => exact Laws.WordRoundTrip.format
  | rawmac => exact Laws.WordRoundTrip.rawmac
  | keystream => exact Laws.WordRoundTrip.keystream
  | maskmac => exact Laws.WordRoundTrip.maskmac
  | verify => exact Laws.WordRoundTrip.verify
  | encrypt => exact Laws.WordRoundTrip.encrypt
  | decrypt => exact Laws.WordRoundTrip.decrypt

theorem eq_encode_iff {w : Word} {i : Instr} :
    w = encode i ↔ cmdReserved w = 0 ∧ (cmdOpcode w).toNat = i.opcode := by
  obtain ⟨-, hreserved, hopcode, -, -⟩ := wordRoundTrip i
  constructor
  · rintro rfl
    exact ⟨hreserved, hopcode⟩
  · rintro ⟨hr, ho⟩
    exact word_ext_fields (hr.trans hreserved.symm) (ho.trans hopcode.symm)

/-! ### The decoder's two answers -/

theorem decode_of_reserved_ne {w : Word} (hr : cmdReserved w ≠ 0) : decode w = .rejected .reservedBits :=
  if_pos hr

theorem decode_of_opcodeMap_some {w : Word} {i : Instr} (hr : cmdReserved w = 0)
    (ho : opcodeMap (cmdOpcode w).toNat = some i) : decode w = .command i := by
  rw [decode, if_neg (not_not_intro hr), ho]

theorem decode_of_opcodeMap_none {w : Word} (hr : cmdReserved w = 0)
    (ho : opcodeMap (cmdOpcode w).toNat = none) : decode w = .rejected .reservedOpcode := by
  rw [decode, if_neg (not_not_intro hr), ho]

theorem decode_eq_command_iff {w : Word} {i : Instr} :
    decode w = .command i ↔ cmdReserved w = 0 ∧ opcodeMap (cmdOpcode w).toNat = some i := by
  by_cases hr : cmdReserved w = 0
  · cases ho : opcodeMap (cmdOpcode w).toNat with
    | none => simp [decode_of_opcodeMap_none hr ho]
    | some j => simp [decode_of_opcodeMap_some hr ho, hr]
  · simp only [decode_of_reserved_ne hr, hr, false_and, reduceCtorEq]

theorem decode_eq_command_iff_eq_encode (w : Word) (i : Instr) : decode w = .command i ↔ w = encode i := by
  rw [decode_eq_command_iff, opcodeMap_eq_some_iff, eq_encode_iff]

/-- The words of IllegalCommand (30_encoding.md R81, R84). -/
theorem decode_rejected_iff (w : Word) : (∃ why, decode w = .rejected why) ↔
    (cmdReserved w ≠ 0 ∨ (cmdOpcode w).toNat = 0 ∨ 0xA ≤ (cmdOpcode w).toNat) := by
  rw [← opcodeMap_eq_none_iff]
  by_cases hr : cmdReserved w = 0
  · cases ho : opcodeMap (cmdOpcode w).toNat with
    | none => exact iff_of_true ⟨_, decode_of_opcodeMap_none hr ho⟩ (.inr rfl)
    | some i => simp [decode_of_opcodeMap_some hr ho, hr]
  · exact iff_of_true ⟨_, decode_of_reserved_ne hr⟩ (.inl hr)

/-- Settles O1: a word is its two fields, and the map is a bijection onto the assigned opcodes. -/
theorem eachWordDecodesToItsCommand : Obligations.EachWordDecodesToItsCommand :=
  ⟨decode_eq_command_iff_eq_encode, by decide, decode_rejected_iff⟩

/-! ### STATUS after an error -/

theorem errCode_code_lt (e : ErrCode) : e.code < 2 ^ 4 := by
  cases e <;> decide

theorem keysetBit_lt (c : Ctx) : keysetBit c < 2 := by
  cases c <;> decide

theorem statusValue_error_toNat (c : Ctx) (e : ErrCode) :
    (statusValue c (some e)).toNat = keysetBit c + 2 + 16 * e.code := by
  have he := errCode_code_lt e
  have hc := keysetBit_lt c
  rw [statusValue, BitVec.toNat_ofNat, Nat.mod_eq_of_lt (by omega)]

/-- A field of STATUS after an error is the digit of its value that stands there (60_exceptions.md R225). -/
theorem statusValue_error_field (c : Ctx) (e : ErrCode) (start len v : Nat)
    (h : (keysetBit c + 2 + 16 * e.code) / 2 ^ start % 2 ^ len = v % 2 ^ len) :
    (statusValue c (some e)).extractLsb' start len = BitVec.ofNat len v := by
  apply BitVec.eq_of_toNat_eq
  rw [BitVec.extractLsb'_toNat, statusValue_error_toNat, Nat.shiftRight_eq_div_pow, h, BitVec.toNat_ofNat]

@[simp] theorem statusKeyset_error (c : Ctx) (e : ErrCode) :
    statusKeyset (statusValue c (some e)) = BitVec.ofNat 1 (keysetBit c) :=
  statusValue_error_field c e 0 1 (keysetBit c) (by omega)

@[simp] theorem statusErr_error (c : Ctx) (e : ErrCode) : statusErr (statusValue c (some e)) = 1 :=
  statusValue_error_field c e 1 1 1 (by have := keysetBit_lt c; omega)

@[simp] theorem statusReservedLow_error (c : Ctx) (e : ErrCode) :
    statusReservedLow (statusValue c (some e)) = 0 :=
  statusValue_error_field c e 2 2 0 (by have := keysetBit_lt c; omega)

@[simp] theorem statusErrcode_error (c : Ctx) (e : ErrCode) :
    statusErrcode (statusValue c (some e)) = BitVec.ofNat 4 e.code :=
  statusValue_error_field c e 4 4 e.code (by have := keysetBit_lt c; omega)

@[simp] theorem statusReservedHigh_error (c : Ctx) (e : ErrCode) :
    statusReservedHigh (statusValue c (some e)) = 0 :=
  statusValue_error_field c e 8 24 0 (by
    have hc := keysetBit_lt c
    have he := errCode_code_lt e
    omega)

/-! ### A CMD write -/

/-- The action of a CMD write is the command write at the state with the action taken. -/
theorem fetch_command {s : State} {w : Word} {rest : List HostAction}
    (hbus : s.bus = .write 32 0x000 w :: rest) :
    fetch s = commandWrite w { s with bus := rest, reply := none } := by
  rw [fetch_cons hbus, perform, hostWrite_command]

/-- A step at a word that is no command reports IllegalCommand (30_encoding.md R84). -/
theorem step_illegalCommand {s : State} {w : Word} {rest : List HostAction} {why : DecodeReject}
    (hbus : s.bus = .write 32 0x000 w :: rest) (hdecode : decode w = .rejected why) :
    step s = .next (raise .illegalCommand { s with bus := rest, reply := none }) := by
  apply step_of_fetch_done
  rw [fetch_command hbus, commandWrite, hdecode]

/-- Settles O4: the step raises the error, which writes STATUS alone, with KEYSET taken from CTX. -/
theorem illegalCommandChangesStatusAlone : Obligations.IllegalCommandChangesStatusAlone := by
  intro s rest w hbus hillegal hkeyset
  obtain ⟨why, hdecode⟩ := (decode_rejected_iff w).mpr hillegal
  exact ⟨statusValue s.ctx (some .illegalCommand), step_illegalCommand hbus hdecode, statusErr_error _ _,
    statusErrcode_error _ _, (statusKeyset_error _ _).trans hkeyset.symm, statusReservedLow_error _ _,
    statusReservedHigh_error _ _⟩

end Sys2Proof.Machine
end

section
/-!
PROOFS. CCM_formatter (41_formatter.md): the layout of B0 and of the counter blocks, the AAD header, the
padding, and the length of the CBC-MAC input.
-/
namespace Sys2Proof.Machine

/-! ### Big-endian fields and fields of a flags byte -/

theorem be_one (v : Nat) : be v 1 = [BitVec.ofNat 8 v] := by
  simp [be]

theorem beValue_be_of_lt {v k : Nat} (h : v < 2 ^ (8 * k)) : beValue (be v k) = v := by
  rw [beValue_be, Nat.mod_eq_of_lt h]

/-- A field of a flags byte is the digit of the byte's number that stands there. -/
theorem flagsByte_field {v : Nat} (h : v < 2 ^ 8) (start len : Nat) :
    ((BitVec.ofNat 8 v).extractLsb' start len).toNat = v / 2 ^ start % 2 ^ len := by
  rw [BitVec.extractLsb'_toNat, BitVec.toNat_ofNat, Nat.mod_eq_of_lt h, Nat.shiftRight_eq_div_pow]

/-! ### The shape that B0 and the counter blocks share (41_formatter.md R105, R106) -/

/-- A flags byte, the nonce, and a number in the bytes that remain of 16. `blockB0_eq` and `blockCtr_eq` say
that B0 and the counter blocks are of this shape. -/
def flaggedBlock (flags : Nat) (nonce : Bytes) (v : Nat) : Bytes :=
  BitVec.ofNat 8 flags :: (nonce ++ be v (15 - nonce.length))

theorem blockB0_eq (nonce : Bytes) (t a m : Nat) :
    blockB0 nonce t a m = flaggedBlock (flagsB0 nonce.length t a) nonce m := by
  simp [blockB0, flaggedBlock, be_one]

theorem blockCtr_eq (nonce : Bytes) (i : Nat) :
    blockCtr nonce i = flaggedBlock (15 - nonce.length - 1) nonce i := by
  simp [blockCtr, flaggedBlock, be_one]

theorem flaggedBlock_length {nonce : Bytes} (h : nonce.length ≤ 13) (flags v : Nat) :
    (flaggedBlock flags nonce v).length = 16 := by
  simp only [flaggedBlock, List.length_cons, List.length_append, be_length]
  omega

theorem flaggedBlock_flags (flags : Nat) (nonce : Bytes) (v : Nat) :
    (flaggedBlock flags nonce v).getD 0 0 = BitVec.ofNat 8 flags := rfl

theorem flaggedBlock_nonce {nonce : Bytes} {j : Nat} (h : j < nonce.length) (flags v : Nat) :
    (flaggedBlock flags nonce v).getD (1 + j) 0 = nonce.getD j 0 := by
  rw [flaggedBlock, Nat.add_comm, List.getD_cons_succ, List.getD_append _ _ _ _ h]

theorem flaggedBlock_drop (flags : Nat) (nonce : Bytes) (v : Nat) :
    (flaggedBlock flags nonce v).drop (1 + nonce.length) = be v (15 - nonce.length) := by
  rw [flaggedBlock, Nat.add_comm, List.drop_succ_cons, List.drop_left]

/-- The number field stands for the number when it fits (41_formatter.md R103). -/
theorem flaggedBlock_value {nonce : Bytes} {v : Nat} (h : v < 2 ^ (8 * (15 - nonce.length))) (flags : Nat) :
    beValue ((flaggedBlock flags nonce v).drop (1 + nonce.length)) = v := by
  rw [flaggedBlock_drop, beValue_be_of_lt h]

/-! ### The flags bytes (41_formatter.md R104, R106) -/

/-- The tag-length field of a legal tag length is nonzero and fits its three bits. -/
theorem tagField_range {t : Nat} (h : t ∈ [4, 6, 8, 10, 12, 14, 16]) : 1 ≤ (t - 2) / 2 ∧ (t - 2) / 2 < 2 ^ 3 := by
  revert t
  decide

theorem adata_lt (a : Nat) : adata a < 2 := by
  unfold adata
  split <;> decide

/-- The fields of the B0 flags byte do not overlap: each is read back as the number put there. -/
theorem flagsB0_fields {n t : Nat} (hn : 7 ≤ n) (ht : t ∈ [4, 6, 8, 10, 12, 14, 16]) (a : Nat) :
    ((BitVec.ofNat 8 (flagsB0 n t a)).extractLsb' 7 1).toNat = 0
      ∧ ((BitVec.ofNat 8 (flagsB0 n t a)).extractLsb' 6 1).toNat = adata a
      ∧ ((BitVec.ofNat 8 (flagsB0 n t a)).extractLsb' 3 3).toNat = (t - 2) / 2
      ∧ ((BitVec.ofNat 8 (flagsB0 n t a)).extractLsb' 0 3).toNat = 15 - n - 1 := by
  obtain ⟨-, htag⟩ := tagField_range ht
  have ha := adata_lt a
  have hL : 15 - n - 1 < 2 ^ 3 := by omega
  have hv : flagsB0 n t a < 2 ^ 8 := by
    rw [flagsB0]
    omega
  simp only [flagsByte_field hv]
  rw [flagsB0]
  generalize (t - 2) / 2 = tag at *
  generalize 15 - n - 1 = width at *
  omega

/-- A counter block's flags byte is `L - 1` and nothing else. -/
theorem blockCtr_flags {nonce : Bytes} (h : 7 ≤ nonce.length) (i : Nat) :
    ((blockCtr nonce i).getD 0 0).toNat = 15 - nonce.length - 1 := by
  rw [blockCtr_eq, flaggedBlock_flags, BitVec.toNat_ofNat, Nat.mod_eq_of_lt (by omega)]

/-! ### B0 and the counter blocks -/

/-- The tag-length field of B0 (41_formatter.md R104). -/
theorem blockB0_tagField {nonce : Bytes} {t : Nat} (hn : 7 ≤ nonce.length)
    (ht : t ∈ [4, 6, 8, 10, 12, 14, 16]) (a m : Nat) :
    (((blockB0 nonce t a m).getD 0 0).extractLsb' 3 3).toNat = (t - 2) / 2 := by
  obtain ⟨-, -, htag, -⟩ := flagsB0_fields hn ht a
  rw [blockB0_eq, flaggedBlock_flags, htag]

/-- A counter block has no tag-length field (41_formatter.md R106). -/
theorem blockCtr_tagField {nonce : Bytes} (hn : 7 ≤ nonce.length) (i : Nat) :
    (((blockCtr nonce i).getD 0 0).extractLsb' 3 3).toNat = 0 := by
  rw [BitVec.extractLsb'_toNat, blockCtr_flags hn, Nat.shiftRight_eq_div_pow,
    Nat.div_eq_of_lt (by omega), Nat.zero_mod]

/-- Settles O19: B0 is a flagged block, and the four fields of its flags byte do not overlap. -/
theorem b0Layout : Obligations.B0Layout := by
  refine ⟨fun nonce t a m hlo hhi ht hm => ?_, by decide⟩
  obtain ⟨hbit7, hadata, htag, hwidth⟩ := flagsB0_fields hlo ht a
  rw [blockB0_eq, flaggedBlock_flags]
  exact ⟨flaggedBlock_length hhi _ _, ⟨BitVec.eq_of_toNat_eq hbit7, hadata, htag, hwidth⟩,
    fun j hj => flaggedBlock_nonce hj _ _, flaggedBlock_value hm _⟩

/-- Settles O20: a counter block is a flagged block whose flags byte is `L - 1`. -/
theorem counterBlockLayout : Obligations.CounterBlockLayout := by
  refine ⟨fun nonce i hlo hhi hi => ⟨?_, blockCtr_flags hlo i, fun j hj => ?_, ?_⟩, by decide, by decide⟩
  · rw [blockCtr_eq, flaggedBlock_length hhi]
  · rw [blockCtr_eq, flaggedBlock_nonce hj]
  · rw [blockCtr_eq, flaggedBlock_value hi]

/-- Settles O23: the tag-length fields of the two flags bytes differ, so the blocks do. -/
theorem b0IsNeverACounterBlock : Obligations.B0IsNeverACounterBlock := by
  intro nonce nonce' t a m i hlen hlo hhi ht
  have hb0 : 1 ≤ (((blockB0 nonce t a m).getD 0 0).extractLsb' 3 3).toNat := by
    rw [blockB0_tagField hlo ht]
    exact (tagField_range ht).1
  have hctr := blockCtr_tagField (nonce := nonce') (hlen ▸ hlo) i
  refine ⟨hb0, hctr, fun heq => ?_⟩
  rw [heq, hctr] at hb0
  exact absurd hb0 (by decide)

/-! ### The AAD header (41_formatter.md R107) -/

@[simp] theorem aadHeader_zero : aadHeader 0 = [] := rfl

theorem aadHeader_of_lt_0xFF00 {a : Nat} (hpos : 1 ≤ a) (h : a < 2 ^ 16 - 2 ^ 8) : aadHeader a = be a 2 := by
  rw [aadHeader, if_neg (by omega), if_pos h]

theorem aadHeader_of_lt_two_pow_32 {a : Nat} (hlo : 2 ^ 16 - 2 ^ 8 ≤ a) (h : a < 2 ^ 32) :
    aadHeader a = [0xFF, 0xFE] ++ be a 4 := by
  rw [aadHeader, if_neg (by omega), if_neg (by omega), if_pos h]

theorem aadHeader_of_two_pow_32_le {a : Nat} (h : 2 ^ 32 ≤ a) : aadHeader a = [0xFF, 0xFF] ++ be a 8 := by
  rw [aadHeader, if_neg (by omega), if_neg (by omega), if_neg (by omega)]

/-- The header has one of the rule's four sizes, whatever the length. -/
theorem aadHeader_length_mem (a : Nat) : (aadHeader a).length ∈ [0, 2, 6, 10] := by
  unfold aadHeader
  split_ifs <;> simp

/-- Settles O21: one equation of the header for each range of lengths. -/
theorem aadHeaderByMagnitude : Obligations.AadHeaderByMagnitude := by
  refine ⟨fun a ha => ⟨?_, fun hpos hlt => ?_, fun hlo hlt => ?_, fun hlo => ?_⟩, by decide⟩
  · rintro rfl
    exact aadHeader_zero
  · rw [aadHeader_of_lt_0xFF00 hpos hlt]
    exact ⟨be_length _ _, beValue_be_of_lt (by omega)⟩
  · rw [aadHeader_of_lt_two_pow_32 hlo hlt]
    exact ⟨by simp, rfl, beValue_be_of_lt hlt⟩
  · rw [aadHeader_of_two_pow_32_le hlo]
    exact ⟨by simp, rfl, beValue_be_of_lt ha⟩

/-! ### Padding (41_formatter.md R108, R109) -/

theorem pad16_take (s : Bytes) : (pad16 s).take s.length = s := List.take_left

theorem pad16_drop (s : Bytes) : (pad16 s).drop s.length = zeros ((16 - s.length % 16) % 16) :=
  List.drop_left

theorem eq_zero_of_mem_pad16_drop {s : Bytes} {b : Byte} (h : b ∈ (pad16 s).drop s.length) : b = 0 := by
  rw [pad16_drop] at h
  exact List.eq_of_mem_replicate h

theorem fmtAad_of_empty {aad : Bytes} (h : aad.length = 0) : fmtAad aad = [] := if_pos h

theorem fmtAad_of_pos {aad : Bytes} (h : 0 < aad.length) :
    fmtAad aad = pad16 (aadHeader aad.length ++ aad) := if_neg h.ne'

/-- The header, the AAD and the padding, one after the other. -/
theorem fmtAad_eq_append {aad : Bytes} (h : 0 < aad.length) :
    ∃ k, fmtAad aad = aadHeader aad.length ++ (aad ++ zeros k) :=
  ⟨_, (fmtAad_of_pos h).trans (List.append_assoc _ _ _)⟩

theorem fmtAad_length (aad : Bytes) : (fmtAad aad).length
    = 16 * if aad.length = 0 then 0 else nblocks ((aadHeader aad.length).length + aad.length) := by
  split
  case isTrue h => rw [fmtAad_of_empty h]; rfl
  case isFalse h => rw [fmtAad_of_pos (Nat.pos_of_ne_zero h), pad16_length, List.length_append]

theorem fmtMsg_length (p : Bytes) : (fmtMsg p).length = 16 * nblocks p.length := pad16_length p

/-- Settles O22: the AAD and the message are each padded by `pad16`, which appends zeros alone. -/
theorem formattedStringsArePadded : Obligations.FormattedStringsArePadded := by
  refine ⟨fun _ => fmtAad_of_empty, fun aad hpos => ⟨?_, ?_, ?_, fun b hb => ?_⟩,
    fun p => ⟨fmtMsg_length p, pad16_take p, fun b => eq_zero_of_mem_pad16_drop⟩⟩
  · rw [fmtAad_length, if_neg hpos.ne']
  · obtain ⟨k, hk⟩ := fmtAad_eq_append hpos
    rw [hk, List.take_left]
  · obtain ⟨k, hk⟩ := fmtAad_eq_append hpos
    rw [hk, List.drop_left, List.take_left]
  · rw [fmtAad_of_pos hpos, ← List.length_append] at hb
    exact eq_zero_of_mem_pad16_drop hb

/-! ### The length of the CBC-MAC input (41_formatter.md R113) -/

theorem blockB0_length {nonce : Bytes} (h : nonce.length ≤ 13) (t a m : Nat) :
    (blockB0 nonce t a m).length = 16 := by
  rw [blockB0_eq, flaggedBlock_length h]

theorem macInput_length {nonce : Bytes} (h : nonce.length ≤ 13) (t : Nat) (aad p : Bytes) :
    (blockB0 nonce t aad.length p.length ++ fmtAad aad ++ fmtMsg p).length
      = 16 * macBlocks aad.length p.length := by
  rw [List.length_append, List.length_append, blockB0_length h, fmtAad_length, fmtMsg_length, macBlocks,
    Nat.mul_add, Nat.mul_add]

/-- Settles O24: the lengths of B0, the formatted AAD and the formatted message add up to the count. -/
theorem macInputBlockCount : Obligations.MacInputBlockCount :=
  ⟨fun _ aad p t _ hhi => ⟨macInput_length hhi t aad p, rfl, fun _ => aadHeader_length_mem aad.length⟩,
    by decide⟩

end Sys2Proof.Machine
end

section
/-!
PROOFS. CBC_MAC_engine (42_cbc_mac.md): the chaining of the CBC-MAC over the blocks of a string.
-/
namespace Sys2Proof.Machine

/-! ### The blocks of a string with a block appended -/

theorem blockOf_append_left {x : Bytes} {j : Nat} (h : 16 * (j + 1) ≤ x.length) (b : Bytes) :
    blockOf (x ++ b) j = blockOf x j := by
  have htake : 16 ≤ (x.drop (16 * j)).length := by rw [List.length_drop]; omega
  rw [blockOf, List.drop_append_of_le_length (by omega), List.take_append_of_le_length htake, blockOf]

theorem blockOf_append_right {x b : Bytes} {j : Nat} (hx : x.length = 16 * j) (hb : b.length = 16) :
    blockOf (x ++ b) j = b := by
  rw [blockOf, List.drop_left' hx, List.take_of_length_le hb.le]

theorem blockOf_zero_of_length {x : Bytes} (h : x.length = 16) : blockOf x 0 = x :=
  List.take_of_length_le h.le

/-! ### The chain of the CBC-MAC (R131) -/

/-- `Y` of R131 after the blocks `X_0 .. X_r`. -/
def cbcChain (key x : Bytes) : Nat → Bytes
  | 0 => cipherE key (blockOf x 0)
  | r + 1 => cipherE key (xorBytes (cbcChain key x r) (blockOf x (r + 1)))

theorem foldl_blocks_eq_cbcChain (key x : Bytes) (r : Nat) :
    (List.range r).foldl (fun y j => cipherE key (xorBytes y (blockOf x (j + 1)))) (cipherE key (blockOf x 0))
      = cbcChain key x r := by
  induction r with
  | zero => rfl
  | succ r ih => rw [List.range_succ, List.foldl_concat, ih, cbcChain]

theorem cbcMac_eq_cbcChain {x : Bytes} {r : Nat} (h : x.length = 16 * (r + 1)) (key : Bytes) :
    cbcMac key x = cbcChain key x r := by
  have hr : x.length / 16 - 1 = r := by omega
  rw [cbcMac, hr, foldl_blocks_eq_cbcChain]

/-- The chain up to block `r` reads no block after it. -/
theorem cbcChain_append {x : Bytes} {r : Nat} (h : 16 * (r + 1) ≤ x.length) (key b : Bytes) :
    cbcChain key (x ++ b) r = cbcChain key x r := by
  induction r with
  | zero => rw [cbcChain, cbcChain, blockOf_append_left h]
  | succ r ih => rw [cbcChain, cbcChain, ih (by omega), blockOf_append_left h]

theorem cbcMac_of_one_block {x : Bytes} (h : x.length = 16) (key : Bytes) : cbcMac key x = cipherE key x := by
  rw [cbcMac_eq_cbcChain (r := 0) h, cbcChain, blockOf_zero_of_length h]

theorem cbcMac_append_block {x b : Bytes} {r : Nat} (hx : x.length = 16 * (r + 1)) (hb : b.length = 16)
    (key : Bytes) : cbcMac key (x ++ b) = cipherE key (xorBytes (cbcMac key x) b) := by
  have happend : (x ++ b).length = 16 * (r + 1 + 1) := by rw [List.length_append, hx, hb]; rfl
  rw [cbcMac_eq_cbcChain happend, cbcMac_eq_cbcChain hx, cbcChain, cbcChain_append hx.ge,
    blockOf_append_right hx hb]

/-- Settles O28: a last block extends the chain by one step, and the chain before it does not see it. -/
theorem cbcMacChainsItsBlocks : Obligations.CbcMacChainsItsBlocks := by
  refine ⟨fun key x h => cbcMac_of_one_block h key, fun key x b hpos hmod hb => ?_⟩
  have hx : x.length = 16 * (x.length / 16 - 1 + 1) := by omega
  exact cbcMac_append_block hx hb key

end Sys2Proof.Machine
end

section
/-!
PROOFS. counter_mode_keystream (43_counter_mode.md): the CTR transform byte by byte, and its being its own
inverse.
-/
namespace Sys2Proof.Machine

/-! ### The bytes of the byte-string primitives (00_scope.md R11) -/

theorem bytes_ext_getD {a b : Bytes} (hlen : a.length = b.length)
    (hbyte : ∀ j < a.length, a.getD j 0 = b.getD j 0) : a = b := by
  refine List.ext_getElem hlen fun j ha hb => ?_
  rw [← List.getD_eq_getElem a 0 ha, ← List.getD_eq_getElem b 0 hb, hbyte j ha]

theorem xorBytes_getD {a b : Bytes} {j : Nat} (ha : j < a.length) (hb : j < b.length) :
    (xorBytes a b).getD j 0 = a.getD j 0 ^^^ b.getD j 0 := by
  have hj : j < (xorBytes a b).length := by rw [xorBytes_length]; omega
  rw [List.getD_eq_getElem _ _ hj, List.getD_eq_getElem _ _ ha, List.getD_eq_getElem _ _ hb]
  exact List.getElem_zipWith

theorem msb_getD {t j : Nat} (h : j < t) (s : Bytes) : (msb t s).getD j 0 = s.getD j 0 := by
  simp only [msb, List.getD_eq_getElem?_getD, List.getElem?_take_of_lt h]

theorem blockOf_getD {r : Nat} (h : r < 16) (s : Bytes) (q : Nat) :
    (blockOf s q).getD r 0 = s.getD (16 * q + r) 0 := by
  simp only [blockOf, List.getD_eq_getElem?_getD, List.getElem?_take_of_lt h, List.getElem?_drop]

/-! ### The CTR transform block by block (R152) -/

/-- Output block `q` of the CTR transform. -/
def ctrBlock (key nonce x : Bytes) (q : Nat) : Bytes :=
  xorBytes (blockOf x q) (msb (blockOf x q).length (keystream key nonce (q + 1)))

/-- The first `n` output blocks; `ctrCrypt_eq_ctrBlocks` says that the transform is all of them. -/
def ctrBlocks (key nonce x : Bytes) (n : Nat) : Bytes := (List.range n).flatMap (ctrBlock key nonce x)

theorem ctrCrypt_eq_ctrBlocks (key nonce x : Bytes) :
    ctrCrypt key nonce x = ctrBlocks key nonce x (nblocks x.length) := rfl

theorem ctrBlocks_succ (key nonce x : Bytes) (n : Nat) :
    ctrBlocks key nonce x (n + 1) = ctrBlocks key nonce x n ++ ctrBlock key nonce x n := by
  simp [ctrBlocks, List.range_succ]

/-- The first `n` blocks stop short only where the input ends. -/
theorem length_ctrBlocks (key nonce x : Bytes) (n : Nat) :
    (ctrBlocks key nonce x n).length = min (16 * n) x.length := ctrBlocks_length key nonce x n

theorem ctrBlock_getD {x : Bytes} {q r : Nat} (hr : r < 16) (hx : 16 * q + r < x.length) (key nonce : Bytes) :
    (ctrBlock key nonce x q).getD r 0
      = x.getD (16 * q + r) 0 ^^^ (keystream key nonce (q + 1)).getD r 0 := by
  have hblock : r < (blockOf x q).length := by rw [blockOf_length]; omega
  have hmask : r < (msb (blockOf x q).length (keystream key nonce (q + 1))).length := by
    rw [msb_length, keystream_length]
    omega
  rw [ctrBlock, xorBytes_getD hblock hmask, blockOf_getD hr, msb_getD hblock]

/-- Every byte within the first `n` blocks is masked with the byte of its own keystream block: either an
earlier block holds it, or it lies in the last. -/
theorem ctrBlocks_getD {x : Bytes} {n j : Nat} (hn : j < 16 * n) (hx : j < x.length) (key nonce : Bytes) :
    (ctrBlocks key nonce x n).getD j 0
      = x.getD j 0 ^^^ (keystream key nonce (j / 16 + 1)).getD (j % 16) 0 := by
  induction n with
  | zero => omega
  | succ n ih =>
    have hlen := length_ctrBlocks key nonce x n
    rw [ctrBlocks_succ]
    by_cases hj : j < 16 * n
    · rw [List.getD_append _ _ _ _ (by omega), ih hj]
    · have hq : n = j / 16 := by omega
      have hr : j - (ctrBlocks key nonce x n).length = j % 16 := by omega
      rw [List.getD_append_right _ _ _ _ (by omega), hr, hq,
        ctrBlock_getD (Nat.mod_lt j (by decide)) (by omega), Nat.div_add_mod]

/-! ### The CTR transform byte by byte (R153) -/

@[simp] theorem ctrCrypt_length (key nonce x : Bytes) : (ctrCrypt key nonce x).length = x.length := by
  rw [ctrCrypt_eq_ctrBlocks, length_ctrBlocks, nblocks]
  omega

theorem ctrCrypt_getD {x : Bytes} {j : Nat} (h : j < x.length) (key nonce : Bytes) :
    (ctrCrypt key nonce x).getD j 0
      = x.getD j 0 ^^^ (keystream key nonce (j / 16 + 1)).getD (j % 16) 0 := by
  rw [ctrCrypt_eq_ctrBlocks, ctrBlocks_getD (by rw [nblocks]; omega) h]

/-- Settles O30: the blocks lie one after the other, and each is masked with its own keystream block. -/
theorem ctrTransformMasksEachByte : Obligations.CtrTransformMasksEachByte :=
  fun key nonce x => ⟨ctrCrypt_length key nonce x, fun _ hj => ctrCrypt_getD hj key nonce⟩

/-! ### The CTR transform is its own inverse (R155) -/

/-- The mask of a byte depends on its index alone, so the second pass takes off what the first put on. -/
theorem ctrCrypt_ctrCrypt (key nonce x : Bytes) : ctrCrypt key nonce (ctrCrypt key nonce x) = x := by
  refine bytes_ext_getD (by simp) fun j hj => ?_
  have hout : j < (ctrCrypt key nonce x).length := by rwa [ctrCrypt_length] at hj
  have hin : j < x.length := by rwa [ctrCrypt_length] at hout
  rw [ctrCrypt_getD hout, ctrCrypt_getD hin, BitVec.xor_assoc, BitVec.xor_self, BitVec.xor_zero]

theorem ctrCrypt_getD_eq_iff {x y : Bytes} {j : Nat} (hx : j < x.length) (hy : j < y.length)
    (key nonce : Bytes) :
    (ctrCrypt key nonce x).getD j 0 = (ctrCrypt key nonce y).getD j 0 ↔ x.getD j 0 = y.getD j 0 := by
  rw [ctrCrypt_getD hx, ctrCrypt_getD hy, BitVec.xor_left_inj]

/-- Settles O31: two inputs have the same mask at an index, and masking twice is no change. -/
theorem ctrTransformIsAnInvolution : Obligations.CtrTransformIsAnInvolution :=
  fun key nonce x _ => ⟨ctrCrypt_ctrCrypt key nonce x,
    fun hlen _ hj => ctrCrypt_getD_eq_iff hj (hlen ▸ hj) key nonce⟩

end Sys2Proof.Machine
end

section
/-!
PROOFS. CCM_tag_mask_and_verify (44_tag_mask_verify.md): the truncated tag, the accumulating comparison, the
ends of VERIFY, and the tag that RAWMAC and MASKMAC leave beside the tag of ENCRYPT.
-/
namespace Sys2Proof.Machine

/-! ### The tag (R171 to R173) -/

theorem msb_xorBytes (t : Nat) (a b : Bytes) : msb t (xorBytes a b) = xorBytes (msb t a) (msb t b) :=
  List.take_zipWith

theorem maskMac_eq_xorBytes (key nonce r : Bytes) (t : Nat) :
    maskMac key nonce r t = xorBytes (msb t r) (msb t (cipherE key (blockCtr nonce 0))) :=
  msb_xorBytes t r (keystream key nonce 0)

/-- Settles O33: each byte of an XOR comes from the bytes of its own index. -/
theorem tagDependsOnItsFirstBytes : Obligations.TagDependsOnItsFirstBytes := by
  intro key nonce r r' t _ _ _
  refine ⟨maskMac_eq_xorBytes key nonce r t, fun h => ?_⟩
  rw [maskMac_eq_xorBytes, h, ← maskMac_eq_xorBytes]

/-- The first `t` bytes of TAG are the tag put there (R173). -/
theorem msb_tagRegister {tag : Bytes} {t : Nat} (hlen : tag.length = t) (ht : t ≤ 16) :
    msb t (tagRegister tag t).bytes = tag := by
  have hfull : (tag ++ zeros (16 - t)).length = 16 := by
    rw [List.length_append, zeros_length, hlen]
    omega
  rw [tagRegister, quad_bytes_ofBytes hfull, msb, List.take_left' hlen]

/-! ### The comparison (R174, R175) -/

@[simp] theorem ctEqual_zero (x y : Bytes) : ctEqual x y 0 = true := rfl

theorem byte_or_xor_eq_zero_iff (acc a b : Byte) : acc ||| a ^^^ b = 0 ↔ acc = 0 ∧ a = b := by
  have hxor : a ^^^ b = 0 ↔ a = b := BitVec.xor_eq_zero_iff
  rw [← hxor]
  exact BitVec.or_eq_zero_iff

/-- One more byte enters the accumulator: it stays 0 exactly when it was 0 and the two bytes are equal. -/
theorem ctEqual_succ (x y : Bytes) (t : Nat) :
    ctEqual x y (t + 1) = true ↔ ctEqual x y t = true ∧ x.getD t 0 = y.getD t 0 := by
  simp only [ctEqual, List.range_succ, List.foldl_concat, beq_iff_eq, byte_or_xor_eq_zero_iff]

theorem ctEqual_iff_getD (x y : Bytes) (t : Nat) :
    ctEqual x y t = true ↔ ∀ j < t, x.getD j 0 = y.getD j 0 := by
  induction t with
  | zero => simp
  | succ t ih => rw [ctEqual_succ, ih, Nat.forall_lt_succ_right]

theorem msb_eq_iff_getD {x y : Bytes} {t : Nat} (hx : t ≤ x.length) (hy : t ≤ y.length) :
    msb t x = msb t y ↔ ∀ j < t, x.getD j 0 = y.getD j 0 := by
  constructor
  · intro h j hj
    rw [← msb_getD hj x, h, msb_getD hj y]
  · intro h
    have hlen : (msb t x).length = (msb t y).length := by
      rw [msb_length, msb_length, Nat.min_eq_left hx, Nat.min_eq_left hy]
    refine bytes_ext_getD hlen fun j hj => ?_
    have hjt : j < t := lt_of_lt_of_le hj (msb_length t x ▸ Nat.min_le_left t x.length)
    rw [msb_getD hjt, msb_getD hjt, h j hjt]

theorem ctEqual_iff_msb_eq {x y : Bytes} {t : Nat} (hx : t ≤ x.length) (hy : t ≤ y.length) :
    ctEqual x y t = true ↔ msb t x = msb t y := by
  rw [ctEqual_iff_getD, msb_eq_iff_getD hx hy]

/-- Settles O34: both sides say that the strings agree at every index below `t`. -/
theorem comparisonIsEqualityOfTheTags : Obligations.ComparisonIsEqualityOfTheTags :=
  fun _ _ _ hx hy => ctEqual_iff_msb_eq hx hy

/-! ### When a check passes (60_exceptions.md R226) -/

theorem checkKeySet_passes_iff (s : State) : (checkKeySet s).1 = true ↔ s.ctx = .keySet := beq_iff_eq

theorem checkNonceLen_passes_iff (s : State) : (checkNonceLen s).1 = true ↔ nonceReady s := nonceLenOK_iff s

theorem checkTagLen_passes_iff (s : State) : (checkTagLen s).1 = true ↔ tagReady s := tagLenOK_iff s

theorem checkMsgLen_passes_iff (s : State) : (checkMsgLen s).1 = true ↔ lengthReady s := msgLenOK_iff s

theorem checkAadRange_passes_iff (s : State) :
    (checkAadRange s).1 = true ↔ rangeReady (aadAddr s) (opA s) := rangeOK_iff _ _

theorem checkInRange_passes_iff (s : State) :
    (checkInRange s).1 = true ↔ rangeReady (inAddr s) (opM s) := rangeOK_iff _ _

/-- A passing check leaves the error to the checks after it (60_exceptions.md R228). -/
theorem firstError_cons_pass {c : Check} (h : c.1 = true) (rest : List Check) :
    firstError (c :: rest) = firstError rest := if_pos h

theorem firstError_cons_fail {c : Check} (h : ¬c.1 = true) (rest : List Check) :
    firstError (c :: rest) = some c.2 := if_neg h

/-! ### The ends of VERIFY (R178) -/

theorem exec_verify_without_key {s : State} (hctx : s.ctx ≠ .keySet) :
    exec .verify s = .next (raise .notInitialized s) := by
  apply validated_fail
  rw [firstError_cons_fail (mt (checkKeySet_passes_iff s).1 hctx)]
  rfl

theorem exec_verify_bad_tagLength {s : State} (hctx : s.ctx = .keySet) (ht : ¬tagReady s) :
    exec .verify s = .next (raise .invalidTagLength s) := by
  apply validated_fail
  rw [firstError_cons_pass ((checkKeySet_passes_iff s).2 hctx),
    firstError_cons_fail (mt (checkTagLen_passes_iff s).1 ht)]
  rfl

/-- Where VERIFY's checks pass, the comparison alone decides between its two results. -/
theorem exec_verify_valid {s : State} (hctx : s.ctx = .keySet) (ht : tagReady s) :
    exec .verify s = if ctEqual s.data.bytes s.tag.bytes (opT s) then .next (complete s)
      else .next (raise .authenticationFailed s) := by
  have hchecks : firstError [checkKeySet s, checkTagLen s] = none := by
    simp only [firstError_eq_none, List.forall_mem_cons, checkKeySet_passes_iff, checkTagLen_passes_iff]
    exact ⟨hctx, ht, List.forall_mem_nil _⟩
  rw [exec, execVerify, validated_pass hchecks]

theorem opT_le_of_tagReady {s : State} (h : tagReady s) : opT s ≤ 16 := by
  have hall : ∀ t ∈ [4, 6, 8, 10, 12, 14, 16], t ≤ 16 := by decide
  exact hall _ h

/-- VERIFY's comparison of DATA and TAG, two groups of 16 bytes. -/
theorem ctEqual_data_tag_iff {s : State} (h : tagReady s) :
    ctEqual s.data.bytes s.tag.bytes (opT s) = true
      ↔ msb (opT s) s.data.bytes = msb (opT s) s.tag.bytes :=
  ctEqual_iff_msb_eq (opT_le_of_tagReady h) (opT_le_of_tagReady h)

theorem complete_of_keySet {s : State} (h : s.ctx = .keySet) :
    complete s = { s with status := 0x00000001 } := by
  rw [complete, h]
  rfl

theorem raise_of_keySet {s : State} (h : s.ctx = .keySet) (c : ErrCode) :
    raise c s = { s with status := BitVec.ofNat 32 (3 + 16 * c.code) } := by
  rw [raise, h]
  rfl

theorem raise_without_key {s : State} (h : s.ctx ≠ .keySet) (c : ErrCode) :
    raise c s = { s with status := BitVec.ofNat 32 (2 + 16 * c.code) } := by
  have hctx : s.ctx = .uninitialized := by
    cases hc : s.ctx with
    | uninitialized => rfl
    | keySet => exact absurd hc h
  rw [raise, hctx, statusValue, keysetBit, Nat.zero_add]

/-- Settles O36: no key, an illegal tag length, equal tags and unequal tags are VERIFY's four ends. -/
theorem verifyReportsTheComparison : Obligations.VerifyReportsTheComparison := by
  refine ⟨by decide, fun s => ⟨fun hctx => ?_, fun hctx ht => ?_, fun hctx ht heq => ?_,
    fun hctx ht hne => ?_⟩⟩
  · rw [exec_verify_without_key hctx, raise_without_key hctx]
    rfl
  · rw [exec_verify_bad_tagLength hctx ht, raise_of_keySet hctx]
    rfl
  · rw [exec_verify_valid hctx ht, if_pos ((ctEqual_data_tag_iff ht).2 heq), complete_of_keySet hctx]
  · rw [exec_verify_valid hctx ht, if_neg (mt (ctEqual_data_tag_iff ht).1 hne), raise_of_keySet hctx]
    rfl

/-! ### The completion of RAWMAC, MASKMAC and ENCRYPT -/

/-- The calls of `E` change no operand, so RAWMAC's result is the raw MAC of the state it began in
(42_cbc_mac.md R134). -/
theorem exec_rawmac_completes {s : State} (h : rawmacReady s)
    (hcalls : cipherFails (macBlocks (opA s) (opM s)) s = false) :
    exec .rawmac s = .next (complete
      { afterCalls (macBlocks (opA s) (opM s)) s with
        data := Quad.ofBytes (rawMac s.keyint (opNonce s) (opT s) (aadBytes s) (inBytes s)) }) := by
  obtain ⟨hctx, hnonce, htag, hlen, haad, hin, hreads⟩ := h
  have hchecks : firstError [checkKeySet s, checkNonceLen s, checkTagLen s, checkMsgLen s,
      checkAadRange s, checkInRange s] = none := by
    simp only [firstError_eq_none, List.forall_mem_cons, checkKeySet_passes_iff, checkNonceLen_passes_iff,
      checkTagLen_passes_iff, checkMsgLen_passes_iff, checkAadRange_passes_iff, checkInRange_passes_iff]
    exact ⟨hctx, hnonce, htag, hlen, haad, hin, List.forall_mem_nil _⟩
  rw [exec, execRawmac, validated_pass hchecks, if_pos ((readsAdmitted_iff s).2 hreads), withCalls_ok hcalls,
    afterCalls_eq]
  rfl

/-- MASKMAC puts the tag of DATA in TAG (R176). -/
theorem exec_maskmac_completes {s : State} (hctx : s.ctx = .keySet) (hnonce : nonceReady s)
    (htag : tagReady s) (hcalls : cipherFails 1 s = false) :
    exec .maskmac s = .next (complete
      { afterCalls 1 s with
        tag := tagRegister (maskMac s.keyint (opNonce s) s.data.bytes (opT s)) (opT s) }) := by
  have hchecks : firstError [checkKeySet s, checkNonceLen s, checkTagLen s] = none := by
    simp only [firstError_eq_none, List.forall_mem_cons, checkKeySet_passes_iff, checkNonceLen_passes_iff,
      checkTagLen_passes_iff]
    exact ⟨hctx, hnonce, htag, List.forall_mem_nil _⟩
  rw [exec, execMaskmac, validated_pass hchecks, withCalls_ok hcalls, afterCalls_eq]
  rfl

@[simp] theorem writesAdmitted_afterCalls (n : Nat) (s : State) :
    writesAdmitted (afterCalls n s) = writesAdmitted s := by
  rw [afterCalls_eq]
  rfl

/-- Where nothing stops ENCRYPT, it writes the ciphertext and the tag (45_context.md R202, R204). -/
theorem exec_encrypt_completes {s : State} (hvalid : messageValid s) (hplaced : buffersPlaced s)
    (hadmitted : messageAdmitted s) (hcalls : cipherFails (passCalls s) s = false) :
    exec .encrypt s = .next (complete
      { afterCalls (passCalls s) s with
        mem := memWrite s.mem (outAddr s) (encrypted s).1
        tag := tagRegister (encrypted s).2 (opT s) }) := by
  obtain ⟨haad, hin, hout⟩ := hadmitted
  have hoverlap := (overlapDefined_iff s).2 hplaced
  have hreads := (readsAdmitted_iff s).2 ⟨haad, hin⟩
  have hwrites : writesAdmitted (afterCalls (passCalls s) s) = true := by
    rw [writesAdmitted_afterCalls, writesAdmitted_iff]
    exact hout
  rw [exec, execEncrypt, validated_pass ((messageChecks_none_iff s).2 hvalid), if_neg (by simp [hoverlap]),
    if_neg (by simp [hreads]), withCalls_ok hcalls, if_neg (by simp [hwrites]), afterCalls_eq]
  rfl

/-! ### RAWMAC, then MASKMAC (R177) -/

/-- MASKMAC reads back from DATA the raw MAC that RAWMAC left there, and masks it as `CcmEncrypt` does
(45_context.md R200). -/
theorem exec_rawmac_then_maskmac {s : State} (h : rawmacReady s) (hcipher : s.platform.cipherCanFail = false) :
    ∃ s₁ s₂, exec .rawmac s = .next s₁ ∧ exec .maskmac s₁ = .next s₂
      ∧ s₂.tag = tagRegister (ccmTag s.keyint (opNonce s) (aadBytes s) (inBytes s) (opT s)) (opT s) := by
  have hraw := exec_rawmac_completes h (cipherFails_of_cannot_fail hcipher)
  rw [afterCalls_of_cannot_fail hcipher] at hraw
  obtain ⟨hctx, hnonce, htag, -⟩ := h
  refine ⟨_, _, hraw,
    exec_maskmac_completes hctx hnonce htag (cipherFails_of_cannot_fail hcipher), ?_⟩
  rw [complete_tag, complete_data, quad_bytes_ofBytes (rawMac_length _ _ _ _ _)]
  rfl

/-- Settles O37: MASKMAC and ENCRYPT both put the tag of `CcmEncrypt` in TAG. -/
theorem rawmacThenMaskmacGivesTheTagOfEncrypt : Obligations.RawmacThenMaskmacGivesTheTagOfEncrypt := by
  intro s hvalid hplaced hadmitted hcipher
  have hencrypt :=
    exec_encrypt_completes hvalid hplaced hadmitted (cipherFails_of_cannot_fail hcipher)
  obtain ⟨hctx, hnonce, htag, hlen, haad, hin, -⟩ := hvalid
  obtain ⟨hreadAad, hreadIn, -⟩ := hadmitted
  obtain ⟨s₁, s₂, hrawmac, hmaskmac, htag₂⟩ :=
    exec_rawmac_then_maskmac ⟨hctx, hnonce, htag, hlen, haad, hin, hreadAad, hreadIn⟩ hcipher
  have ht : opT s ≤ 16 := opT_le_of_tagReady htag
  have hfirst : msb (opT s) s₂.tag.bytes
      = ccmTag s.keyint (opNonce s) (aadBytes s) (inBytes s) (opT s) := by
    rw [htag₂, msb_tagRegister (by rw [ccmTag_length, Nat.min_eq_left ht]) ht]
  exact ⟨s₁, s₂, _, hrawmac, hmaskmac, hencrypt, htag₂, hfirst.trans (ccmTag_eq_tagOver s _), hfirst⟩

end Sys2Proof.Machine
end

section
/-!
PROOFS. The CCM Context (45_context.md): the key commands, the Context state machine, and that decryption
undoes encryption.
-/
namespace Sys2Proof.Machine

/-! ### Without a key (R195) -/

/-- A command whose first check is that a key is set makes no other check without one. -/
theorem validated_without_key {s : State} (h : s.ctx ≠ .keySet) (rest : List Check) (execution : State → Out) :
    validated (checkKeySet s :: rest) execution s = .next (raise .notInitialized s) :=
  validated_fail (firstError_cons_fail (mt (checkKeySet_passes_iff s).1 h) rest)

theorem exec_without_key {s : State} {i : Instr} (hsetkey : i ≠ .setkey) (hfree : i ≠ .free)
    (h : s.ctx ≠ .keySet) : exec i s = .next (raise .notInitialized s) := by
  cases i with
  | setkey => exact absurd rfl hsetkey
  | free => exact absurd rfl hfree
  | format => rw [exec, execFormat, validated_without_key h]
  | rawmac => rw [exec, execRawmac, validated_without_key h]
  | keystream => rw [exec, execKeystream, validated_without_key h]
  | maskmac => rw [exec, execMaskmac, validated_without_key h]
  | verify => exact exec_verify_without_key h
  | encrypt => rw [exec, execEncrypt, messageChecks, validated_without_key h]
  | decrypt => rw [exec, execDecrypt, messageChecks, validated_without_key h]

/-- Settles O40: the check of CTX is the first one of each of the seven commands. -/
theorem noCommandRunsWithoutAKey : Obligations.NoCommandRunsWithoutAKey := by
  intro s i hsetkey hfree h
  rw [exec_without_key hsetkey hfree h, raise_without_key h]
  rfl

/-! ### SETKEY and FREE (R190 to R193) -/

theorem exec_setkey_legal {s : State} (h : opK s ∈ [16, 24, 32]) :
    exec .setkey s = .next (complete { clearStaging s with keyint := opKey s, ctx := .keySet }) := by
  have hcheck : firstError [(keyLenOK (opK s), .invalidKeyLength)] = none :=
    firstError_cons_pass ((keyLenOK_iff s).2 h) []
  rw [exec, execSetkey, validated_pass hcheck]

theorem exec_setkey_illegal {s : State} (h : opK s ∉ [16, 24, 32]) :
    exec .setkey s = .next (raise .invalidKeyLength (clearStaging s)) := by
  have hcheck : firstError [(keyLenOK (opK s), .invalidKeyLength)] = some .invalidKeyLength :=
    firstError_cons_fail (mt (keyLenOK_iff s).1 h) []
  rw [exec, execSetkey, validated_fail hcheck]

theorem exec_free (s : State) :
    exec .free s = .next (complete { clearStaging s with keyint := [], ctx := .uninitialized }) := rfl

/-- Settles O38: the only check is that of the key length, and the staging is cleared before it. -/
theorem setkeyLoadsOrKeepsTheKey : Obligations.SetkeyLoadsOrKeepsTheKey := by
  refine ⟨by decide, fun s => ⟨fun hlegal => ?_, fun hillegal => ?_⟩⟩
  · rw [exec_setkey_legal hlegal, complete_of_keySet rfl]
    rfl
  · rw [exec_setkey_illegal hillegal]
    by_cases hctx : s.ctx = .keySet
    · rw [raise_of_keySet (s := clearStaging s) hctx, if_pos hctx]
      rfl
    · rw [raise_without_key (s := clearStaging s) hctx, if_neg hctx]
      rfl

/-- Settles O39: FREE makes no check. -/
theorem freeReleasesTheKey : Obligations.FreeReleasesTheKey :=
  ⟨by decide, fun s => exec_free s⟩

/-! ### The other commands leave the Context as it is (R196) -/

/-- Where a command answers a next state, it has the Context state and the held key of `s`. -/
def KeepsContext (s : State) (o : Out) : Prop := ∀ t, o = .next t → t.ctx = s.ctx ∧ t.keyint = s.keyint

theorem keepsContext_next {s t : State} (hctx : t.ctx = s.ctx) (hkeyint : t.keyint = s.keyint) :
    KeepsContext s (.next t) := by
  rintro _ ⟨⟩
  exact ⟨hctx, hkeyint⟩

theorem keepsContext_refused (s : State) (r : Refusal) : KeepsContext s (.refused r) := nofun

theorem validated_keepsContext {s : State} {execution : State → Out} (h : KeepsContext s (execution s))
    (checks : List Check) : KeepsContext s (validated checks execution s) := by
  rcases validated_cases (Eq.refl (validated checks execution s)) with ⟨c, -, hfail⟩ | ⟨-, hpass⟩
  · rw [hfail]
    exact keepsContext_next rfl rfl
  · rwa [← hpass]

theorem withCalls_keepsContext {n : Nat} {s : State} {onFailure onSuccess : State → Out}
    (hfailure : KeepsContext s (onFailure (afterCalls n s)))
    (hsuccess : KeepsContext s (onSuccess (afterCalls n s))) :
    KeepsContext s (withCalls n onFailure onSuccess s) := by
  rcases withCalls_cases (Eq.refl (withCalls n onFailure onSuccess s)) with ⟨-, h⟩ | ⟨-, h⟩
  · rwa [← h]
  · rwa [← h]

theorem execFormat_keepsContext (s : State) : KeepsContext s (execFormat s) := by
  apply validated_keepsContext
  exact keepsContext_next rfl rfl

theorem execRawmac_keepsContext (s : State) : KeepsContext s (execRawmac s) := by
  refine validated_keepsContext ?_ _
  by_cases hreads : readsAdmitted s = true
  · rw [if_pos hreads]
    exact withCalls_keepsContext (keepsContext_next (by simp) (by simp)) (keepsContext_next (by simp) (by simp))
  · rw [if_neg hreads]
    exact keepsContext_next rfl rfl

theorem execKeystream_keepsContext (s : State) : KeepsContext s (execKeystream s) := by
  apply validated_keepsContext
  exact withCalls_keepsContext (keepsContext_next (by simp) (by simp)) (keepsContext_next (by simp) (by simp))

theorem execMaskmac_keepsContext (s : State) : KeepsContext s (execMaskmac s) := by
  apply validated_keepsContext
  exact withCalls_keepsContext (keepsContext_next (by simp) (by simp)) (keepsContext_next (by simp) (by simp))

theorem execVerify_keepsContext (s : State) : KeepsContext s (execVerify s) := by
  refine validated_keepsContext ?_ _
  by_cases hequal : ctEqual s.data.bytes s.tag.bytes (opT s) = true
  · rw [if_pos hequal]
    exact keepsContext_next rfl rfl
  · rw [if_neg hequal]
    exact keepsContext_next rfl rfl

theorem encryptEnd_keepsContext {s : State} {o : Out} (h : EncryptEnd s o) : KeepsContext s o := by
  cases h with
  | overlap => exact keepsContext_refused s _
  | invalid | aborted | done => exact keepsContext_next rfl rfl

theorem decryptEnd_keepsContext {s : State} {o : Out} (h : DecryptEnd s o) : KeepsContext s o := by
  cases h with
  | overlap => exact keepsContext_refused s _
  | invalid | aborted | done | unequal => exact keepsContext_next rfl rfl

/-- Only SETKEY and FREE change the Context (R196). -/
theorem exec_keepsContext {i : Instr} (hsetkey : i ≠ .setkey) (hfree : i ≠ .free) (s : State) :
    KeepsContext s (exec i s) := by
  cases i with
  | setkey => exact absurd rfl hsetkey
  | free => exact absurd rfl hfree
  | format => exact execFormat_keepsContext s
  | rawmac => exact execRawmac_keepsContext s
  | keystream => exact execKeystream_keepsContext s
  | maskmac => exact execMaskmac_keepsContext s
  | verify => exact execVerify_keepsContext s
  | encrypt => exact encryptEnd_keepsContext (execEncrypt_ends s)
  | decrypt => exact decryptEnd_keepsContext (execDecrypt_ends s)

/-! ### The Context state machine (R196) -/

@[simp] theorem statusErrcode_success (c : Ctx) : statusErrcode (statusValue c none) = 0 := by
  cases c <;> decide

/-- A step at a platform reset (70_reset_and_hazards.md R250). -/
theorem step_reset {s : State} {rest : List HostAction} (hbus : s.bus = .reset :: rest) :
    step s = .next (platformReset { s with bus := rest, reply := none }) := by
  apply step_of_fetch_done
  rw [fetch_cons hbus, perform]

/-- Settles O41, row by row of the table of R196. -/
theorem contextStateMachine : Obligations.ContextStateMachine := by
  refine ⟨?setkeyLegal, ?setkeyIllegal, ?free, ?other, ?undecoded, ?reset⟩
  case setkeyLegal =>
    intro s hlegal
    exact ⟨_, exec_setkey_legal hlegal, rfl, statusErrcode_success _, rfl⟩
  case setkeyIllegal =>
    intro s hillegal
    exact ⟨_, exec_setkey_illegal hillegal, rfl, rfl, statusErrcode_error _ _⟩
  case free =>
    intro s
    exact ⟨_, exec_free s, rfl, rfl, statusErrcode_success _⟩
  case other =>
    intro s t i hsetkey hfree hexec
    obtain ⟨hctx, hkeyint⟩ := exec_keepsContext hsetkey hfree s t hexec
    refine ⟨hctx, hkeyint, fun huninitialized => ?_⟩
    have hnokey : s.ctx ≠ .keySet := by simp [huninitialized]
    rw [exec_without_key hsetkey hfree hnokey] at hexec
    cases hexec
    exact statusErrcode_error _ _
  case undecoded =>
    intro s rest w why hbus hdecode
    exact ⟨_, step_illegalCommand hbus hdecode, rfl, rfl, statusErrcode_error _ _⟩
  case reset =>
    intro s rest hbus
    exact ⟨_, step_reset hbus, rfl⟩

/-! ### Decryption undoes encryption (R210) -/

theorem ctEqual_self (x : Bytes) (t : Nat) : ctEqual x x t = true :=
  (ctEqual_iff_getD x x t).2 fun _ _ => rfl

theorem ccmDecrypt_ccmEncrypt (key nonce aad p : Bytes) (t : Nat) :
    ccmDecrypt key nonce aad (ccmEncrypt key nonce aad p t).1 (ccmEncrypt key nonce aad p t).2 t = some p := by
  have hrecovered : ctrCrypt key nonce (ccmEncrypt key nonce aad p t).1 = p := ctrCrypt_ctrCrypt key nonce p
  rw [ccmDecrypt, hrecovered]
  exact if_pos (ctEqual_self (ccmTag key nonce aad p t) t)

/-- Settles O52: the CTR transform takes itself off, so the expected tag is the one encryption gave. -/
theorem decryptionUndoesEncryption : Obligations.DecryptionUndoesEncryption :=
  fun key nonce aad p t _ _ _ _ _ _ => ccmDecrypt_ccmEncrypt key nonce aad p t

end Sys2Proof.Machine
end

section
/-!
PROOFS. DECRYPT on a mismatch (45_context.md R205 to R207): which end reports AuthenticationFailed, and what
it leaves in the buffer memory.
-/
namespace Sys2Proof.Machine

/-! ### The comparison of DECRYPT (R205) -/

theorem suppliedTag_length {s : State} (h : tagReady s) : (suppliedTag s).length = opT s := by
  rw [suppliedTag, msb_length, quad_bytes_length, Nat.min_eq_left (opT_le_of_tagReady h)]

theorem expectedTag_length {s : State} (h : tagReady s) : (expectedTag s).length = opT s := by
  rw [expectedTag, ccmTag_length, Nat.min_eq_left (opT_le_of_tagReady h)]

theorem msb_of_length {b : Bytes} {t : Nat} (h : b.length = t) : msb t b = b := List.take_of_length_le h.le

/-- Both tags have exactly the `t` bytes that are compared. -/
theorem tagsMatch_iff {s : State} (h : tagReady s) : tagsMatch s = true ↔ tagsEqual s := by
  have hexpected := expectedTag_length h
  have hsupplied := suppliedTag_length h
  rw [tagsMatch, ctEqual_iff_msb_eq hexpected.ge hsupplied.ge, msb_of_length hexpected,
    msb_of_length hsupplied, expectedTag_eq_tagOver, suppliedTag]

theorem comparisonMade_iff_firstPassDone (s : State) : comparisonMade s = true ↔ firstPassDone s := by
  rw [comparisonMade_iff, readsAdmitted_iff, and_assoc]
  rfl

@[simp] theorem tagsMatch_afterCalls (n : Nat) (s : State) : tagsMatch (afterCalls n s) = tagsMatch s := by
  rw [afterCalls_eq]
  rfl

/-- Where DECRYPT makes its comparison, the comparison alone chooses between its two passes
(R205, R206). -/
theorem exec_decrypt_of_comparisonMade {s : State} (hvalid : messageValid s) (hplaced : buffersPlaced s)
    (hmade : comparisonMade s = true) :
    exec .decrypt s = if tagsMatch s then releasePlaintext (afterCalls (passCalls s) s)
      else zeroOutput (afterCalls (passCalls s) s) := by
  obtain ⟨hreads, hcalls⟩ := (comparisonMade_iff s).1 hmade
  have hoverlap := (overlapDefined_iff s).2 hplaced
  rw [exec, execDecrypt, validated_pass ((messageChecks_none_iff s).2 hvalid), if_neg (by simp [hoverlap]),
    if_neg (by simp [hreads]), withCalls_ok hcalls, tagsMatch_afterCalls]

/-! ### What reports AuthenticationFailed -/

/-- The error a validation reports is that of one of its checks. -/
theorem firstError_mem {checks : List Check} {c : ErrCode} (h : firstError checks = some c) :
    c ∈ checks.map Prod.snd := by
  induction checks with
  | nil => cases h
  | cons check rest ih =>
    by_cases hok : check.1 = true
    · rw [firstError_cons_pass hok] at h
      exact List.mem_cons_of_mem _ (ih h)
    · rw [firstError_cons_fail hok] at h
      cases h
      exact List.mem_cons_self

theorem messageChecks_ne_authenticationFailed {s : State} {c : ErrCode}
    (h : firstError (messageChecks s) = some c) : c ≠ .authenticationFailed := by
  have hmem : c ∈ [ErrCode.notInitialized, .invalidNonceLength, .invalidTagLength, .messageTooLong,
      .bufferFault, .bufferFault, .bufferFault] := firstError_mem h
  rintro rfl
  exact absurd hmem (by decide)

/-- ERRCODE 6 is AuthenticationFailed and no other error (60_exceptions.md R222). -/
theorem statusErrcode_error_eq_six_iff (ctx : Ctx) (c : ErrCode) :
    (statusErrcode (statusValue ctx (some c))).toNat = 6 ↔ c = .authenticationFailed := by
  rw [statusErrcode_error]
  cases c <;> decide

/-- Of DECRYPT's ends only the mismatch reports AuthenticationFailed: the checks and the aborts have other
codes. -/
theorem decrypt_authenticationFailed {s t : State} (hexec : exec .decrypt s = .next t)
    (hcode : (statusErrcode t.status).toNat = 6) :
    messageValid s ∧ comparisonMade s = true ∧ tagsMatch s = false ∧
      ∃ o, t = raise .authenticationFailed
        { s with oracle := o, mem := memWrite s.mem (outAddr s) (zeros (opM s)) } := by
  have hends : DecryptEnd s (.next t) := hexec ▸ execDecrypt_ends s
  cases hends with
  | invalid c hc =>
    exact absurd ((statusErrcode_error_eq_six_iff _ c).1 hcode) (messageChecks_ne_authenticationFailed hc)
  | aborted _ _ matched _ c hc o =>
    have hauth : c = .authenticationFailed := (statusErrcode_error_eq_six_iff _ c).1 hcode
    rw [hauth] at hc
    exact absurd hc (by decide)
  | done =>
    rw [complete_status, statusErrcode_success] at hcode
    exact absurd hcode (by decide)
  | unequal hvalid _ hmade hmatch o => exact ⟨hvalid, hmade, hmatch, o, rfl⟩

/-! ### The zeroed output (R207) -/

@[simp] theorem zeros_getD (n j : Nat) : (zeros n).getD j 0 = 0 := by
  simp only [zeros, List.getD_eq_getElem?_getD, List.getElem?_replicate]
  split <;> rfl

/-- A legal output range lies inside the address space, also when it is empty. -/
theorem outAddr_add_opM_le {s : State} (h : rangeReady (outAddr s) (opM s)) :
    outAddr s + opM s ≤ 2 ^ 64 := by
  rcases Nat.eq_zero_or_pos (opM s) with hzero | hpos
  · rw [hzero]
    exact (pair_u64_lt s.outaddr).le
  · exact h hpos

theorem read_zeroedOutput {s : State} (hwf : s.mem.wf = true) (hrange : rangeReady (outAddr s) (opM s))
    (a : Nat) :
    (memWrite s.mem (outAddr s) (zeros (opM s))).read a = if inOutput s a then 0 else s.mem.read a := by
  have hfits : outAddr s + (zeros (opM s)).length ≤ 2 ^ 64 := by
    rw [zeros_length]
    exact outAddr_add_opM_le hrange
  rw [read_memWrite hwf hfits, zeros_length, zeros_getD]

/-- Where the tags differ and the port admits the writes, DECRYPT zeroes its output (R207). -/
theorem exec_decrypt_mismatch {s : State} (hvalid : messageValid s) (hplaced : buffersPlaced s)
    (hmade : comparisonMade s = true) (hmatch : ¬tagsMatch s = true)
    (hwrites : admitted s .write (outAddr s) (opM s)) :
    exec .decrypt s = .next (raise .authenticationFailed
      { afterCalls (passCalls s) s with mem := memWrite s.mem (outAddr s) (zeros (opM s)) }) := by
  have hwrites' : writesAdmitted (afterCalls (passCalls s) s) = true := by
    rw [writesAdmitted_afterCalls, writesAdmitted_iff]
    exact hwrites
  rw [exec_decrypt_of_comparisonMade hvalid hplaced hmade, if_neg hmatch, zeroOutput,
    if_neg (by simp [hwrites']), afterCalls_eq]
  rfl

/-- Settles O50: the mismatch is the one end with ERRCODE 6, and it is reached when nothing stops the command
before its output is zeroed. -/
theorem decryptZeroesItsOutputOnAMismatch : Obligations.DecryptZeroesItsOutputOnAMismatch := by
  constructor
  · intro s t hwf hexec hcode
    obtain ⟨hvalid, hmade, hmatch, o, rfl⟩ := decrypt_authenticationFailed hexec hcode
    obtain ⟨-, -, htag, -, -, -, hrange⟩ := hvalid
    refine ⟨rfl, fun a ha => ?_, fun a ha => ?_, (comparisonMade_iff_firstPassDone s).1 hmade, ?_⟩
    · rw [raise_mem, read_zeroedOutput hwf hrange, if_pos ha]
    · rw [raise_mem, read_zeroedOutput hwf hrange, if_neg ha]
    · rw [← tagsMatch_iff htag, hmatch]
      exact Bool.false_ne_true
  · intro s hvalid hplaced hadmitted hcalls hne
    obtain ⟨hreadAad, hreadIn, hwrites⟩ := hadmitted
    have hmade := (comparisonMade_iff_firstPassDone s).2 ⟨hreadAad, hreadIn, hcalls⟩
    have hmismatch := fun hmatch => exec_decrypt_mismatch hvalid hplaced hmade hmatch hwrites
    obtain ⟨hctx, -, htag, -⟩ := hvalid
    rw [hmismatch (mt (tagsMatch_iff htag).1 hne),
      raise_of_keySet (by exact (afterCalls_ctx _ s).trans hctx)]
    rfl

end Sys2Proof.Machine
end

section
/-!
PROOFS. The order of the checks (60_exceptions.md R226, R228): the checks that each command makes are the rows
of the table that name it, in the table's order, so the first that fails is the error reported.
-/
namespace Sys2Proof.Machine

/-! ### The table as a list of the engine's checks -/

/-- The check of a row of the table, with its error. -/
def CheckRow.check (row : CheckRow) (s : State) : Check := (row.passes s, row.error)

/-- The checks of the rows that name the command, in the rows' order. -/
def checksNaming (i : Instr) (s : State) (rows : List CheckRow) : List Check :=
  (rows.filter fun row => row.commands.contains i).map fun row => row.check s

/-- The checks that the table of R226 gives a command. -/
def tableChecks (i : Instr) (s : State) : List Check := checksNaming i s checkTable

theorem checksNaming_cons_named {i : Instr} {row : CheckRow} (h : row.commands.contains i = true) (s : State)
    (rows : List CheckRow) : checksNaming i s (row :: rows) = row.check s :: checksNaming i s rows := by
  rw [checksNaming, List.filter_cons, if_pos h]
  rfl

theorem checksNaming_cons_other {i : Instr} {row : CheckRow} (h : ¬row.commands.contains i = true)
    (s : State) (rows : List CheckRow) : checksNaming i s (row :: rows) = checksNaming i s rows := by
  rw [checksNaming, List.filter_cons, if_neg h]
  rfl

/-- The first row that names the command and fails is the first that fails of the rows that name it. -/
theorem find_failing_eq_firstError (i : Instr) (s : State) (rows : List CheckRow) :
    (rows.find? fun row => row.commands.contains i && !row.passes s).map CheckRow.error
      = firstError (checksNaming i s rows) := by
  induction rows with
  | nil => rfl
  | cons row rows ih =>
    by_cases hnamed : row.commands.contains i = true
    · rw [checksNaming_cons_named hnamed]
      by_cases hpass : row.passes s = true
      · rw [List.find?_cons_of_neg (by simp [hpass]), ih, firstError_cons_pass hpass]
      · rw [List.find?_cons_of_pos (by simpa [hpass] using hnamed), firstError_cons_fail hpass]
        rfl
    · rw [List.find?_cons_of_neg (by exact fun h => hnamed (Bool.and_eq_true_iff.1 h).1), ih,
        checksNaming_cons_other hnamed]

theorem firstFailing_eq_firstError (i : Instr) (s : State) :
    firstFailing i s = firstError (tableChecks i s) :=
  find_failing_eq_firstError i s checkTable

/-! ### The engine's checks in the words of the table -/

theorem checkCounter_passes_iff (s : State) :
    (checkCounter s).1 = true ↔ opI s < 2 ^ (8 * (15 - opN s)) := decide_eq_true_iff

theorem checkOutRange_passes_iff (s : State) :
    (checkOutRange s).1 = true ↔ rangeReady (outAddr s) (opM s) := rangeOK_iff _ _

/-- A check that passes exactly when `p` holds is the decision of `p` with the check's error. -/
theorem check_eq_decide {check : Check} {p : Prop} [Decidable p] (h : check.1 = true ↔ p) :
    check = (decide p, check.2) :=
  Prod.ext (Bool.eq_iff_iff.2 (h.trans decide_eq_true_iff.symm)) rfl

theorem checkKeySet_eq (s : State) : checkKeySet s = (decide (s.ctx = .keySet), .notInitialized) :=
  check_eq_decide (checkKeySet_passes_iff s)

theorem checkKeyLen_eq (s : State) :
    ((keyLenOK (opK s), .invalidKeyLength) : Check) = (decide (opK s ∈ [16, 24, 32]), .invalidKeyLength) :=
  check_eq_decide (keyLenOK_iff s)

theorem checkNonceLen_eq (s : State) : checkNonceLen s = (decide (nonceReady s), .invalidNonceLength) :=
  check_eq_decide (checkNonceLen_passes_iff s)

theorem checkTagLen_eq (s : State) : checkTagLen s = (decide (tagReady s), .invalidTagLength) :=
  check_eq_decide (checkTagLen_passes_iff s)

theorem checkMsgLen_eq (s : State) : checkMsgLen s = (decide (lengthReady s), .messageTooLong) :=
  check_eq_decide (checkMsgLen_passes_iff s)

theorem checkCounter_eq (s : State) :
    checkCounter s = (decide (opI s < 2 ^ (8 * (15 - opN s))), .messageTooLong) :=
  check_eq_decide (checkCounter_passes_iff s)

theorem checkAadRange_eq (s : State) :
    checkAadRange s = (decide (rangeReady (aadAddr s) (opA s)), .bufferFault) :=
  check_eq_decide (checkAadRange_passes_iff s)

theorem checkInRange_eq (s : State) :
    checkInRange s = (decide (rangeReady (inAddr s) (opM s)), .bufferFault) :=
  check_eq_decide (checkInRange_passes_iff s)

theorem checkOutRange_eq (s : State) :
    checkOutRange s = (decide (rangeReady (outAddr s) (opM s)), .bufferFault) :=
  check_eq_decide (checkOutRange_passes_iff s)

/-- The rows of the table, each with the engine's own check. -/
def engineRows (s : State) : List (List Instr × Check) :=
  [ ([.format, .rawmac, .keystream, .maskmac, .verify, .encrypt, .decrypt], checkKeySet s),
    ([.setkey], (keyLenOK (opK s), .invalidKeyLength)),
    ([.format, .rawmac, .keystream, .maskmac, .encrypt, .decrypt], checkNonceLen s),
    ([.format, .rawmac, .maskmac, .verify, .encrypt, .decrypt], checkTagLen s),
    ([.format, .rawmac, .encrypt, .decrypt], checkMsgLen s),
    ([.keystream], checkCounter s),
    ([.rawmac, .encrypt, .decrypt], checkAadRange s),
    ([.rawmac, .encrypt, .decrypt], checkInRange s),
    ([.encrypt, .decrypt], checkOutRange s) ]

theorem checkTable_eq_engineRows (s : State) :
    checkTable.map (fun row => (row.commands, row.check s)) = engineRows s := by
  rw [engineRows, checkKeySet_eq, checkKeyLen_eq, checkNonceLen_eq, checkTagLen_eq, checkMsgLen_eq,
    checkCounter_eq, checkAadRange_eq, checkInRange_eq, checkOutRange_eq]
  rfl

/-- The engine's checks of a command: those of the rows that name it. -/
def engineChecks (i : Instr) (s : State) : List Check :=
  ((engineRows s).filter fun row => row.1.contains i).map Prod.snd

theorem tableChecks_eq_engineChecks (i : Instr) (s : State) : tableChecks i s = engineChecks i s := by
  rw [engineChecks, ← checkTable_eq_engineRows, List.filter_map, List.map_map]
  rfl

/-! ### A command that fails a check of the table -/

/-- SETKEY clears the key staging before its check; no other command changes anything before its checks
(45_context.md R190). -/
def validatedState (i : Instr) (s : State) : State := if i = .setkey then clearStaging s else s

/-- Every command makes its checks of the table, in the table's order, and then runs an execution phase;
FREE's list of checks is empty (R226, R227). -/
theorem exec_eq_validated (i : Instr) (s : State) :
    ∃ execution, exec i s = validated (engineChecks i s) execution (validatedState i s) := by
  cases i with
  | free => exact ⟨fun _ => execFree s, rfl⟩
  | setkey | format | rawmac | keystream | maskmac | verify | encrypt | decrypt =>
    rw [exec]
    exact ⟨_, rfl⟩

/-- A command reports the error of the first of the table's checks that it makes and fails (R228). -/
theorem exec_of_firstFailing {i : Instr} {s : State} {c : ErrCode} (h : firstFailing i s = some c) :
    exec i s = .next (raise c (validatedState i s)) := by
  rw [firstFailing_eq_firstError, tableChecks_eq_engineChecks] at h
  obtain ⟨execution, hexec⟩ := exec_eq_validated i s
  rw [hexec, validated_fail h]

/-! ### A CMD write (R225, R228) -/

/-- STATUS after an error, with KEYSET as the Context state gives it (60_exceptions.md R225). -/
theorem statusValue_error (ctx : Ctx) (c : ErrCode) : statusValue ctx (some c)
    = BitVec.ofNat 32 ((if ctx = .keySet then 1 else 0) + 2 + 16 * c.code) := by
  cases ctx <;> rfl

/-- A step at a command word runs the command on the state without the taken action. -/
theorem step_command {s : State} {w : Word} {rest : List HostAction} {i : Instr}
    (hbus : s.bus = .write 32 0x000 w :: rest) (hdecode : decode w = .command i) :
    step s = exec i { s with bus := rest, reply := none } := by
  rw [step, fetch_command hbus, commandWrite, hdecode]

/-- No check of the table reads the bus or the last read's value. -/
theorem firstFailing_fetched (i : Instr) (s : State) (rest : List HostAction) (reply : Option Word) :
    firstFailing i { s with bus := rest, reply := reply } = firstFailing i s := rfl

/-- Settles O42: a word that does not decode is IllegalCommand, and a command's checks are its rows of the
table. -/
theorem firstFailedCheckIsReported : Obligations.FirstFailedCheckIsReported := by
  intro s rest w hbus
  refine ⟨fun why hdecode => ?_, fun i c hdecode hfail => ?_⟩
  · rw [step_illegalCommand hbus hdecode, raise, statusValue_error]
    rfl
  · rw [← firstFailing_fetched i s rest none] at hfail
    rw [step_command hbus hdecode, exec_of_firstFailing hfail, raise, statusValue_error, validatedState]
    by_cases hsetkey : i = .setkey
    · rw [if_pos hsetkey, if_pos hsetkey]
      rfl
    · rw [if_neg hsetkey, if_neg hsetkey]

end Sys2Proof.Machine
end

section
/-!
PROOFS. The invariant (10_state.md sections 3 and 5, 60_exceptions.md section 1): what one action makes of a
state, action by action, and that each action and each command keeps the invariant.
-/
namespace Sys2Proof.Machine

/-! ### What an action makes of a state -/

/-- The outcome of a step whose action asks for `f`: `step_eq_outcome` says that a step is this. -/
def Fetched.outcome : Fetched → Out
  | .run i s => exec i s
  | .done o => o

theorem step_eq_outcome (s : State) : step s = (fetch s).outcome := by
  rw [step]
  cases fetch s <;> rfl

theorem step_of_act {s : State} {act : HostAction} {rest : List HostAction} (hbus : s.bus = act :: rest) :
    step s = (perform act { s with bus := rest, reply := none }).outcome := by
  rw [step_eq_outcome, fetch_cons hbus]

theorem step_of_no_act {s : State} (hbus : s.bus = []) : step s = .next s := by
  rw [step, fetch, hbus]

theorem hostWrite_refused {bits : Nat} {off : BitVec 12} {r : Refusal} (h : accessRefusal bits off = some r)
    (v : Word) (s : State) : hostWrite bits off v s = .done (.refused r) := by
  rw [hostWrite, h]

theorem hostWrite_to_cmd {bits : Nat} {off : BitVec 12} (h : accessRefusal bits off = none)
    (hcmd : regAt off = some .cmd) (v : Word) (s : State) : hostWrite bits off v s = commandWrite v s := by
  rw [hostWrite, h]
  exact if_pos hcmd

theorem hostWrite_beside_cmd {bits : Nat} {off : BitVec 12} (h : accessRefusal bits off = none)
    (hcmd : regAt off ≠ some .cmd) (v : Word) (s : State) :
    hostWrite bits off v s = .done (.next (writeOffset off v s)) := by
  rw [hostWrite, h]
  exact if_neg hcmd

theorem hostRead_refused {bits : Nat} {off : BitVec 12} {r : Refusal} (h : accessRefusal bits off = some r)
    (s : State) : hostRead bits off s = .refused r := by
  rw [hostRead, h]

theorem hostRead_answers {bits : Nat} {off : BitVec 12} (h : accessRefusal bits off = none) (s : State) :
    hostRead bits off s = .next { s with reply := some (readOffset off s) } := by
  rw [hostRead, h]

theorem commandWrite_of_command {w : Word} {i : Instr} (h : decode w = .command i) (s : State) :
    commandWrite w s = .run i s := by
  rw [commandWrite, h]

theorem commandWrite_of_rejected {w : Word} {why : DecodeReject} (h : decode w = .rejected why) (s : State) :
    commandWrite w s = .done (.next (raise .illegalCommand s)) := by
  rw [commandWrite, h]

theorem hostStore_inside {addr : BitVec 64} {bytes : Bytes} (h : addr.toNat + bytes.length ≤ 2 ^ 64)
    (s : State) : hostStore addr bytes s = .next { s with mem := memWrite s.mem addr.toNat bytes } :=
  if_pos ((storeInMemory_iff addr bytes).2 h)

theorem hostStore_pastTop {addr : BitVec 64} {bytes : Bytes} (h : ¬addr.toNat + bytes.length ≤ 2 ^ 64)
    (s : State) : hostStore addr bytes s = .fault .hostStorePastTop :=
  if_neg (mt (storeInMemory_iff addr bytes).1 h)

/-! ### A reset during a command (70_reset_and_hazards.md R252) -/

theorem writesBuffer_iff (i : Instr) : writesBuffer i = true ↔ i = .encrypt ∨ i = .decrypt := by
  cases i <;> decide

/-- Every way a reset during the command of the word `w` ends: reset alone, a refused overlap, or reset with
the output range of a message command cut short. -/
inductive ResetEnd (w : Word) (s : State) : Out → Prop
  | plain : ResetEnd w s (.next (platformReset s))
  | overlap (h : ¬buffersPlaced s) : ResetEnd w s (.refused .overlappingBuffers)
  | cut (i : Instr) (hw : decode w = .command i) (hi : writesBuffer i = true) (h : messageValid s)
      (h' : buffersPlaced s) :
      ResetEnd w s (.next (platformReset
        { s with mem := memWrite s.mem (outAddr s) (cutOutput i s), freeSeed := s.freeSeed + 1 }))

theorem resetDuringCommand_ends (w : Word) (s : State) : ResetEnd w s (resetDuringCommand w s) := by
  rw [resetDuringCommand]
  cases hw : decode w with
  | rejected why => exact .plain
  | command i =>
    simp only [Bool.and_eq_true, Option.isNone_iff_eq_none, messageChecks_none_iff]
    split
    case isFalse => exact .plain
    case isTrue hrun =>
      obtain ⟨hi, hvalid⟩ := hrun
      split
      case isTrue hoverlap => exact .cut i hw hi hvalid ((overlapDefined_iff s).1 hoverlap)
      case isFalse hoverlap => exact .overlap (mt (overlapDefined_iff s).2 hoverlap)

/-! ### STATUS is legal after every command (60_exceptions.md R225) -/

@[simp] theorem statusKeyset_success (c : Ctx) :
    statusKeyset (statusValue c none) = BitVec.ofNat 1 (keysetBit c) := by
  cases c <;> decide

@[simp] theorem statusErr_success (c : Ctx) : statusErr (statusValue c none) = 0 := by
  cases c <;> decide

theorem statusErrcode_error_toNat (ctx : Ctx) (c : ErrCode) :
    (statusErrcode (statusValue ctx (some c))).toNat = c.code := by
  rw [statusErrcode_error, BitVec.toNat_ofNat, Nat.mod_eq_of_lt (errCode_code_lt c)]

theorem errCode_code_range (c : ErrCode) : 1 ≤ c.code ∧ c.code ≤ 9 := by
  cases c <;> decide

theorem statusLegal_complete (s : State) : statusLegal (complete s) := by
  refine ⟨statusKeyset_success _, ?_, ?_⟩
  · simp
  · rw [complete_status]
    cases s.ctx <;> decide

theorem statusLegal_raise (c : ErrCode) (s : State) : statusLegal (raise c s) := by
  obtain ⟨hlo, hhi⟩ := errCode_code_range c
  have hcode : (statusErrcode (raise c s).status).toNat = c.code := statusErrcode_error_toNat s.ctx c
  refine ⟨statusKeyset_error _ _, iff_of_true (statusErr_error _ _) fun hzero => ?_, hcode.trans_le hhi,
    statusReservedLow_error _ _, statusReservedHigh_error _ _⟩
  rw [hzero] at hcode
  exact absurd (hcode.trans_ge hlo) (by decide)

/-! ### The invariant but for STATUS, which every command writes -/

/-- What the invariant says of CTRL, the key and the memory. -/
def State.Sound (s : State) : Prop := ctrlLegal s ∧ keyLegal s ∧ s.mem.wf = true

theorem State.Inv.sound {s : State} (h : State.Inv s) : s.Sound := h.2

theorem inv_complete {s : State} (h : s.Sound) : State.Inv (complete s) := ⟨statusLegal_complete s, h⟩

theorem inv_raise {s : State} (h : s.Sound) (c : ErrCode) : State.Inv (raise c s) :=
  ⟨statusLegal_raise c s, h⟩

theorem inv_abort {s : State} (h : s.Sound) (c : ErrCode) : State.Inv (abort c s) :=
  inv_raise (s := { s with freeSeed := s.freeSeed + 1 }) h c

theorem sound_afterCalls {s : State} (h : s.Sound) (n : Nat) : (afterCalls n s).Sound := by
  rw [afterCalls_eq]
  exact h

/-- A string of the message's length, written to the output range of a valid message, keeps the memory's
form. -/
theorem sound_writeOutput {s : State} (h : s.Sound) (hvalid : messageValid s) {b : Bytes}
    (hb : b.length = opM s) : State.Sound { s with mem := memWrite s.mem (outAddr s) b } := by
  obtain ⟨hctrl, hkey, hmem⟩ := h
  obtain ⟨-, -, -, -, -, -, hrange⟩ := hvalid
  exact ⟨hctrl, hkey, memWrite_wf hmem (hb ▸ outAddr_add_opM_le hrange)⟩

/-! ### Every command keeps the invariant -/

/-- Where an outcome is a next state, that state meets the invariant. -/
def KeepsInv (o : Out) : Prop := ∀ t, o = .next t → State.Inv t

theorem keepsInv_next {t : State} (h : State.Inv t) : KeepsInv (.next t) := by
  rintro _ ⟨⟩
  exact h

theorem keepsInv_refused (r : Refusal) : KeepsInv (.refused r) := nofun

theorem keepsInv_fault (f : Fault) : KeepsInv (.fault f) := nofun

theorem validated_keepsInv {s : State} {execution : State → Out} (h : s.Sound)
    (hexec : KeepsInv (execution s)) (checks : List Check) : KeepsInv (validated checks execution s) := by
  rcases validated_cases (Eq.refl (validated checks execution s)) with ⟨c, -, hfail⟩ | ⟨-, hpass⟩
  · rw [hfail]
    exact keepsInv_next (inv_raise h c)
  · rwa [← hpass]

theorem withCalls_keepsInv {n : Nat} {s : State} {onFailure onSuccess : State → Out} (h : s.Sound)
    (hfailure : ∀ u : State, u.Sound → KeepsInv (onFailure u))
    (hsuccess : ∀ u : State, u.Sound → KeepsInv (onSuccess u)) :
    KeepsInv (withCalls n onFailure onSuccess s) := by
  rcases withCalls_cases (Eq.refl (withCalls n onFailure onSuccess s)) with ⟨-, hcall⟩ | ⟨-, hcall⟩
  · rw [← hcall]
    exact hfailure _ (sound_afterCalls h n)
  · rw [← hcall]
    exact hsuccess _ (sound_afterCalls h n)

/-- The staged key of a legal length has that length (45_context.md R190). -/
theorem opKey_length (s : State) : (opKey s).length = min (opK s) 32 := by
  rw [opKey, List.length_take, keyStage_bytes_length]

theorem exec_setkey_keepsInv {s : State} (h : s.Sound) : KeepsInv (exec .setkey s) := by
  by_cases hlegal : opK s ∈ [16, 24, 32]
  · rw [exec_setkey_legal hlegal]
    obtain ⟨hctrl, -, hmem⟩ := h
    have hlen : (opKey s).length = 16 ∨ (opKey s).length = 24 ∨ (opKey s).length = 32 := by
      rw [opKey_length]
      simp only [List.mem_cons, List.not_mem_nil, or_false] at hlegal
      omega
    exact keepsInv_next (inv_complete ⟨hctrl, ⟨nofun, fun _ => hlen⟩, hmem⟩)
  · rw [exec_setkey_illegal hlegal]
    exact keepsInv_next (inv_raise (s := clearStaging s) h _)

theorem exec_free_keepsInv {s : State} (h : s.Sound) : KeepsInv (exec .free s) := by
  obtain ⟨hctrl, -, hmem⟩ := h
  rw [exec_free]
  exact keepsInv_next (inv_complete ⟨hctrl, ⟨fun _ => rfl, nofun⟩, hmem⟩)

theorem execFormat_keepsInv {s : State} (h : s.Sound) : KeepsInv (execFormat s) := by
  refine validated_keepsInv h ?_ _
  exact keepsInv_next (inv_complete h)

theorem execKeystream_keepsInv {s : State} (h : s.Sound) : KeepsInv (execKeystream s) := by
  refine validated_keepsInv h ?_ _
  exact withCalls_keepsInv h (fun _ hu => keepsInv_next (inv_abort hu _))
    fun _ hu => keepsInv_next (inv_complete hu)

theorem execMaskmac_keepsInv {s : State} (h : s.Sound) : KeepsInv (execMaskmac s) := by
  refine validated_keepsInv h ?_ _
  exact withCalls_keepsInv h (fun _ hu => keepsInv_next (inv_abort hu _))
    fun _ hu => keepsInv_next (inv_complete hu)

theorem execRawmac_keepsInv {s : State} (h : s.Sound) : KeepsInv (execRawmac s) := by
  refine validated_keepsInv h ?_ _
  by_cases hreads : readsAdmitted s = true
  · rw [if_pos hreads]
    exact withCalls_keepsInv h (fun _ hu => keepsInv_next (inv_abort hu _))
      fun _ hu => keepsInv_next (inv_complete hu)
  · rw [if_neg hreads]
    exact keepsInv_next (inv_abort h _)

theorem execVerify_keepsInv {s : State} (h : s.Sound) : KeepsInv (execVerify s) := by
  refine validated_keepsInv h ?_ _
  by_cases hequal : ctEqual s.data.bytes s.tag.bytes (opT s) = true
  · rw [if_pos hequal]
    exact keepsInv_next (inv_complete h)
  · rw [if_neg hequal]
    exact keepsInv_next (inv_raise h _)

theorem encryptEnd_keepsInv {s : State} {o : Out} (h : s.Sound) (hend : EncryptEnd s o) : KeepsInv o := by
  cases hend with
  | invalid c => exact keepsInv_next (inv_raise h c)
  | overlap => exact keepsInv_refused _
  | aborted hvalid _ c _ o =>
    exact keepsInv_next (inv_abort (sound_writeOutput h hvalid (abortOutEncrypt_length _)) c)
  | done hvalid => exact keepsInv_next (inv_complete (sound_writeOutput h hvalid (encrypted_length s)))

theorem decryptEnd_keepsInv {s : State} {o : Out} (h : s.Sound) (hend : DecryptEnd s o) : KeepsInv o := by
  cases hend with
  | invalid c => exact keepsInv_next (inv_raise h c)
  | overlap => exact keepsInv_refused _
  | aborted hvalid _ matched _ c _ o =>
    exact keepsInv_next (inv_abort (sound_writeOutput h hvalid (abortOutDecrypt_length matched _)) c)
  | done hvalid => exact keepsInv_next (inv_complete (sound_writeOutput h hvalid (recovered_length s)))
  | unequal hvalid => exact keepsInv_next (inv_raise (sound_writeOutput h hvalid (zeros_length _)) _)

theorem exec_keepsInv (i : Instr) {s : State} (h : s.Sound) : KeepsInv (exec i s) := by
  cases i with
  | setkey => exact exec_setkey_keepsInv h
  | free => exact exec_free_keepsInv h
  | format => exact execFormat_keepsInv h
  | rawmac => exact execRawmac_keepsInv h
  | keystream => exact execKeystream_keepsInv h
  | maskmac => exact execMaskmac_keepsInv h
  | verify => exact execVerify_keepsInv h
  | encrypt => exact encryptEnd_keepsInv h (execEncrypt_ends s)
  | decrypt => exact decryptEnd_keepsInv h (execDecrypt_ends s)

/-! ### Every other action keeps the invariant -/

/-- Settles O18: the reset values of STATUS, CTRL and the key are legal, and the memory lists nothing. -/
theorem resetMeetsTheInvariant : Obligations.ResetMeetsTheInvariant := by
  unfold Obligations.ResetMeetsTheInvariant
  decide

/-- Reset takes the engine to its reset values and keeps the memory. -/
theorem inv_platformReset {s : State} (h : s.mem.wf = true) : State.Inv (platformReset s) := by
  obtain ⟨hstatus, hctrl, hkey, -⟩ := resetMeetsTheInvariant
  exact ⟨hstatus, hctrl, hkey, h⟩

theorem inv_writeReg {s : State} (h : State.Inv s) (r : Reg) (v : Word) : State.Inv (writeReg r v s) := by
  cases r with
  | ctrl =>
    obtain ⟨hstatus, -, hrest⟩ := h
    have hctrl : v &&& ctrlMask &&& ~~~ctrlMask = 0 := by
      rw [not_ctrlMask]
      exact and_ctrlMask_reserved v
    exact ⟨hstatus, hctrl, hrest⟩
  | _ => exact h

theorem inv_writeOffset {s : State} (h : State.Inv s) (off : BitVec 12) (v : Word) :
    State.Inv (writeOffset off v s) := by
  cases hreg : regAt off with
  | none => rwa [writeOffset_reserved hreg]
  | some r =>
    rw [writeOffset_of_regAt hreg]
    exact inv_writeReg h r v

theorem hostWrite_keepsInv {s : State} (h : State.Inv s) (bits : Nat) (off : BitVec 12) (v : Word) :
    KeepsInv (hostWrite bits off v s).outcome := by
  cases haccess : accessRefusal bits off with
  | some r =>
    rw [hostWrite_refused haccess]
    exact keepsInv_refused r
  | none =>
    by_cases hcmd : regAt off = some .cmd
    · rw [hostWrite_to_cmd haccess hcmd]
      cases hdecode : decode v with
      | command i =>
        rw [commandWrite_of_command hdecode]
        exact exec_keepsInv i h.sound
      | rejected why =>
        rw [commandWrite_of_rejected hdecode]
        exact keepsInv_next (inv_raise h.sound _)
    · rw [hostWrite_beside_cmd haccess hcmd]
      exact keepsInv_next (inv_writeOffset h off v)

theorem hostRead_keepsInv {s : State} (h : State.Inv s) (bits : Nat) (off : BitVec 12) :
    KeepsInv (hostRead bits off s) := by
  cases haccess : accessRefusal bits off with
  | some r =>
    rw [hostRead_refused haccess]
    exact keepsInv_refused r
  | none =>
    rw [hostRead_answers haccess]
    exact keepsInv_next h

theorem hostStore_keepsInv {s : State} (h : State.Inv s) (addr : BitVec 64) (bytes : Bytes) :
    KeepsInv (hostStore addr bytes s) := by
  by_cases hfits : addr.toNat + bytes.length ≤ 2 ^ 64
  · rw [hostStore_inside hfits]
    obtain ⟨hstatus, hctrl, hkey, hmem⟩ := h
    exact keepsInv_next ⟨hstatus, hctrl, hkey, memWrite_wf hmem hfits⟩
  · rw [hostStore_pastTop hfits]
    exact keepsInv_fault _

theorem resetEnd_keepsInv {s : State} {w : Word} {o : Out} (h : s.Sound) (hend : ResetEnd w s o) :
    KeepsInv o := by
  cases hend with
  | plain =>
    obtain ⟨-, -, hmem⟩ := h
    exact keepsInv_next (inv_platformReset hmem)
  | overlap => exact keepsInv_refused _
  | cut i _ hi hvalid =>
    obtain ⟨-, -, hmem⟩ := sound_writeOutput h hvalid (cutOutput_length hi s)
    exact keepsInv_next (inv_platformReset hmem)

theorem perform_keepsInv {s : State} (h : State.Inv s) (act : HostAction) :
    KeepsInv (perform act s).outcome := by
  cases act with
  | write bits off v => exact hostWrite_keepsInv h bits off v
  | read bits off => exact hostRead_keepsInv h bits off
  | store addr bytes => exact hostStore_keepsInv h addr bytes
  | reset =>
    obtain ⟨-, -, -, hmem⟩ := h
    exact keepsInv_next (inv_platformReset hmem)
  | resetDuring w => exact resetEnd_keepsInv h.sound (resetDuringCommand_ends w s)

/-- Settles O17: a step is one action, and each action keeps the invariant. -/
theorem everyStepKeepsTheInvariant : Obligations.EveryStepKeepsTheInvariant := by
  intro s t h hstep
  cases hbus : s.bus with
  | nil =>
    rw [step_of_no_act hbus] at hstep
    exact keepsInv_next h t hstep
  | cons act rest =>
    rw [step_of_act hbus] at hstep
    exact perform_keepsInv (s := { s with bus := rest, reply := none }) h act t hstep

end Sys2Proof.Machine
end

section
/-!
PROOFS. The command word and the registers as the host reaches them (10_state.md, 30_encoding.md): the window,
the key staging, the operands, STATUS at a command's end, and the reset values.
-/
namespace Sys2Proof.Machine

/-! ### The command word -/

/-- Settles O2: each word is of the map, or outside it. -/
theorem writtenOutWordsDecode : Obligations.WrittenOutWordsDecode := by
  unfold Obligations.WrittenOutWordsDecode
  decide

/-- Settles O3: the action is taken from the bus, and the decoded command runs. -/
theorem stepRunsTheDecodedCommand : Obligations.StepRunsTheDecodedCommand :=
  fun _ _ _ _ hbus hdecode => step_command hbus hdecode

/-- Settles O14: with nothing on the bus no action is performed. -/
theorem engineWithoutAnActionStays : Obligations.EngineWithoutAnActionStays :=
  fun _ hbus => step_of_no_act hbus

/-! ### The register window (10_state.md R22) -/

theorem regAt_eq_none_iff (off : BitVec 12) : regAt off = none ↔ ∀ r ∈ allRegs, r.offset ≠ off.toNat := by
  simp [regAt]

/-- No register stands at 0x00C, and none from 0x0B0 on. -/
theorem offset_ne_reserved : ∀ r ∈ allRegs, r.offset ≠ 0x00C ∧ r.offset < 0x0B0 := by
  decide

/-- Below 0x0B0 every other multiple of 4 is the offset of a register. -/
theorem exists_reg_at_offset : ∀ q < 44, q ≠ 3 → ∃ r ∈ allRegs, r.offset = 4 * q := by
  decide

theorem regAt_eq_none_iff_reserved {off : BitVec 12} (h : off.toNat % 4 = 0) :
    regAt off = none ↔ off.toNat = 0x00C ∨ 0x0B0 ≤ off.toNat := by
  rw [regAt_eq_none_iff]
  constructor
  · intro hnone
    by_contra hassigned
    obtain ⟨r, hr, hoffset⟩ := exists_reg_at_offset (off.toNat / 4) (by omega) (by omega)
    exact hnone r hr (by omega)
  · intro hreserved r hr hoffset
    have hr := offset_ne_reserved r hr
    omega

/-- Settles O5: each register stands at its own offset, and the reserved ones are the two kinds listed. -/
theorem registerWindowMap : Obligations.RegisterWindowMap :=
  ⟨by decide, fun i => regAt_windowOffset (.key i),
    fun i => ⟨regAt_windowOffset (.nonce i), regAt_windowOffset (.tag i), regAt_windowOffset (.data i),
      regAt_windowOffset (.b0 i), regAt_windowOffset (.ctr0 i)⟩,
    by decide, fun _ => regAt_eq_none_iff_reserved⟩

/-! ### A write of a pair's half and of the key staging -/

theorem pair_set_lo_u64 (p : Pair) (v : Word) : (p.set .lo v).u64 = v.toNat + 2 ^ 32 * (p.get .hi).toNat :=
  rfl

theorem pair_set_hi_u64 (p : Pair) (v : Word) : (p.set .hi v).u64 = (p.get .lo).toNat + 2 ^ 32 * v.toNat :=
  rfl

/-- Settles O11: each of the six operands is the number of its own pair. -/
theorem pairWriteKeepsTheOtherHalf : Obligations.PairWriteKeepsTheOtherHalf :=
  fun s v => ⟨pair_set_lo_u64 s.alen v, pair_set_hi_u64 s.alen v, pair_set_lo_u64 s.mlen v,
    pair_set_hi_u64 s.mlen v, pair_set_lo_u64 s.aadaddr v, pair_set_hi_u64 s.aadaddr v,
    pair_set_lo_u64 s.inaddr v, pair_set_hi_u64 s.inaddr v, pair_set_lo_u64 s.outaddr v,
    pair_set_hi_u64 s.outaddr v, pair_set_lo_u64 s.ctrv v, pair_set_hi_u64 s.ctrv v⟩

/-- Each of the eight registers stands in the bytes of the staging at four times its number. -/
theorem keyStage_set_bytes (k : KeyStage) (i : Fin 8) (v : Word) :
    (k.set i v).bytes = k.bytes.take (4 * i.val) ++ wordBytes v ++ k.bytes.drop (4 * i.val + 4) := by
  fin_cases i <;> rfl

/-- Settles O9: the staging is the one field that the step changes. -/
theorem keyStagingWriteReplacesFourBytes : Obligations.KeyStagingWriteReplacesFourBytes :=
  fun s _ i v hbus => ⟨s.key.set i v, step_write_windowOffset hbus nofun, keyStage_set_bytes s.key i v⟩

/-! ### STATUS at a command's end (60_exceptions.md R225) -/

theorem statusValue_success (ctx : Ctx) : statusValue ctx none = if ctx = .keySet then 1 else 0 := by
  cases ctx <;> rfl

theorem keysetBit_eq_one_iff (ctx : Ctx) : BitVec.ofNat 1 (keysetBit ctx) = 1 ↔ ctx = .keySet := by
  cases ctx <;> decide

/-- Settles O12: the values of `complete` and `raise`, and the fields of those values. -/
theorem endOfACommandWritesStatus : Obligations.EndOfACommandWritesStatus := by
  refine ⟨by decide, fun s => ?_, fun c s => ?_, fun c s => ?_, fun s => ?_⟩
  · rw [complete, statusValue_success]
  · rw [raise, statusValue_error]
  · obtain ⟨hlo, hhi⟩ := errCode_code_range c
    rw [raise_status]
    exact ⟨hlo, hhi, statusErr_error _ _, statusErrcode_error_toNat _ _,
      by rw [statusKeyset_error, keysetBit_eq_one_iff]⟩
  · rw [complete_status]
    exact ⟨statusErr_success _, statusErrcode_success _,
      by rw [statusKeyset_success, keysetBit_eq_one_iff]⟩

/-! ### Reset (70_reset_and_hazards.md R250) -/

theorem platformReset_reset : platformReset State.reset = State.reset := rfl

/-- Settles O15: `platformReset` has the reset values, and resetting `State.reset` changes nothing. -/
theorem resetValues : Obligations.ResetValues := by
  refine ⟨fun s rest hbus =>
      ⟨_, step_reset hbus, fun r => readReg_platformReset r _, rfl, rfl, rfl, rfl, rfl⟩,
    fun r => ?_, rfl, rfl, rfl⟩
  rw [← platformReset_reset, readReg_platformReset]

/-! ### What the host reads (10_state.md R22, R26) -/

theorem quad_get_eq_quadWords (q : Quad) (i : Fin 4) : q.get i = (quadWords q).getD i 0 := by
  fin_cases i <;> rfl

theorem readReg_eq_shownValue (r : Reg) (s : State) : readReg r s = shownValue s r := by
  cases r with
  | cmd | status | ctrl | key => rfl
  | nonce i | tag i | data i | b0 i | ctr0 i => exact quad_get_eq_quadWords _ i
  | alen h | mlen h | aadaddr h | inaddr h | outaddr h | ctrv h => cases h <;> rfl

/-- No read looks at the held key or at the staged key. -/
theorem readOffset_rekeyed (off : BitVec 12) (s : State) (key : KeyStage) (keyint : Bytes) :
    readOffset off { s with key := key, keyint := keyint } = readOffset off s := by
  cases hreg : regAt off with
  | none => rw [readOffset_reserved hreg, readOffset_reserved hreg]
  | some r =>
    rw [readOffset_of_regAt hreg, readOffset_of_regAt hreg]
    cases r <;> rfl

/-- Settles O54: a read answers `readOffset`, which is the table's value, and changes nothing. -/
theorem noReadShowsTheKey : Obligations.NoReadShowsTheKey := by
  refine ⟨fun s r => readReg_eq_shownValue r s, fun s rest r hbus => ?_,
    fun s rest off key keyint ha hbus => ⟨readOffset off s, fun r hreg => ?_, fun hreg => ?_,
      step_read hbus ha, ?_⟩⟩
  · rw [step_read hbus (windowOffset_aligned r), readOffset_of_regAt (regAt_windowOffset r),
      readReg_eq_shownValue]
  · rw [readOffset_of_regAt hreg, readReg_eq_shownValue]
  · exact readOffset_reserved hreg s
  · have hread := step_read (s := { s with key := key, keyint := keyint }) hbus ha
    rwa [readOffset_rekeyed] at hread

/-! ### The operands (30_encoding.md R83) -/

/-- A field of a register word is the digit of its number that stands there. -/
theorem wordField_toNat (w : Word) (start len : Nat) :
    (w.extractLsb' start len).toNat = w.toNat / 2 ^ start % 2 ^ len := by
  rw [BitVec.extractLsb'_toNat, Nat.shiftRight_eq_div_pow]

theorem opT_eq (s : State) : opT s = s.ctrl.toNat % 2 ^ 5 := by
  rw [opT, wordField_toNat, pow_zero, Nat.div_one]

theorem opN_eq (s : State) : opN s = s.ctrl.toNat / 2 ^ 8 % 2 ^ 4 := wordField_toNat _ _ _

theorem opK_eq (s : State) : opK s = s.ctrl.toNat / 2 ^ 16 % 2 ^ 6 := wordField_toNat _ _ _

/-- The first bytes of a group of registers, by register and byte. -/
theorem take_quad_bytes_getD {n : Nat} {i j : Fin 4} (h : 4 * i.val + j.val < n) (q : Quad) :
    (q.bytes.take n).getD (4 * i.val + j.val) 0 = (q.get i).extractLsb' (8 * j.val) 8 :=
  (msb_getD h q.bytes).trans (quad_bytes_getD q i j)

theorem take_keyStage_bytes_getD {n : Nat} {i : Fin 8} {j : Fin 4} (h : 4 * i.val + j.val < n)
    (k : KeyStage) : (k.bytes.take n).getD (4 * i.val + j.val) 0 = (k.get i).extractLsb' (8 * j.val) 8 :=
  (msb_getD h k.bytes).trans (keyStage_bytes_getD k i j)

/-- CTRL's mask keeps the bits of the three fields (10_state.md R32). -/
theorem ctrlMask_field {start len : Nat}
    (h : ∀ i < len, ctrlMask.getLsbD (start + i) = true) (v : Word) :
    (v &&& ctrlMask).extractLsb' start len = v.extractLsb' start len := by
  apply BitVec.eq_of_getLsbD_eq
  intro i hi
  rw [BitVec.getLsbD_extractLsb', BitVec.getLsbD_extractLsb', BitVec.getLsbD_and, h i hi, Bool.and_true]

/-- The number that `ctrl t, n, k` writes has `t`, `n` and `k` as its fields (30_encoding.md R86). -/
theorem ctrlValue_toNat {t n k : Nat} (ht : t < 2 ^ 5) (hn : n < 2 ^ 4) (hk : k < 2 ^ 6) :
    (BitVec.ofNat 32 (t + 2 ^ 8 * n + 2 ^ 16 * k)).toNat = t + 2 ^ 8 * n + 2 ^ 16 * k := by
  rw [BitVec.toNat_ofNat, Nat.mod_eq_of_lt (by omega)]

/-- The three operands of CTRL after a write of CTRL. -/
theorem ctrlFields_of_write {t n k : Nat} (ht : t < 2 ^ 5) (hn : n < 2 ^ 4) (hk : k < 2 ^ 6) (s : State) :
    let u := writeReg .ctrl (BitVec.ofNat 32 (t + 2 ^ 8 * n + 2 ^ 16 * k)) s
    opT u = t ∧ opN u = n ∧ opK u = k := by
  simp only [writeReg, opT, opN, opK, ctrlMask_field (start := 0) (len := 5) (by decide),
    ctrlMask_field (start := 8) (len := 4) (by decide), ctrlMask_field (start := 16) (len := 6) (by decide),
    wordField_toNat, ctrlValue_toNat ht hn hk]
  omega

/-- Settles O57: each operand is a field, or the first bytes, of its register. -/
theorem operandsComeFromTheirFields : Obligations.OperandsComeFromTheirFields := by
  refine ⟨fun s => ⟨opT_eq s, opN_eq s, opK_eq s, rfl,
    ⟨opNonce_length s, fun i j h => take_quad_bytes_getD h s.nonce⟩,
    ⟨by rw [suppliedTag, msb_length, quad_bytes_length], fun i j h => take_quad_bytes_getD h s.tag⟩,
    ⟨quad_bytes_length s.data, quad_bytes_getD s.data⟩,
    ⟨opKey_length s, fun i j h => take_keyStage_bytes_getD h s.key⟩, rfl, rfl, rfl, rfl, rfl, rfl⟩, ?_⟩
  intro s rest t n k ht hn hk hbus
  exact ⟨_, step_write_windowOffset (r := .ctrl) hbus (by decide), ctrlFields_of_write ht hn hk _⟩

end Sys2Proof.Machine
end

section
/-!
PROOFS. The buffer memory and the platform's parameters (20_memory.md, 60_exceptions.md R230), the counters of
a message, and the blocks that FORMAT writes (41_formatter.md).
-/
namespace Sys2Proof.Machine

/-! ### Strings in the buffer memory (20_memory.md R60) -/

theorem memRead_getD {n j : Nat} (h : j < n) (m : Memory) (addr : Nat) :
    (memRead m addr n).getD j 0 = m.read (addr + j) := by
  have hj : j < (memRead m addr n).length := by rwa [memRead_length]
  rw [List.getD_eq_getElem _ _ hj, memRead_getElem]

theorem read_memWrite_inside {m : Memory} {addr : Nat} {b : Bytes} (hm : m.wf = true)
    (h : addr + b.length ≤ 2 ^ 64) {j : Nat} (hj : j < b.length) :
    (memWrite m addr b).read (addr + j) = b.getD j 0 := by
  rw [read_memWrite hm h, if_pos (by omega), Nat.add_sub_cancel_left]

theorem read_memWrite_outside {m : Memory} {addr a : Nat} {b : Bytes} (hm : m.wf = true)
    (h : addr + b.length ≤ 2 ^ 64) (ha : a < addr ∨ addr + b.length ≤ a) :
    (memWrite m addr b).read a = m.read a := by
  rw [read_memWrite hm h, if_neg (by omega)]

/-- Settles O58: a read and a write take the bytes of a string one after the other. -/
theorem buffersLieInAddressOrder : Obligations.BuffersLieInAddressOrder :=
  ⟨fun m addr n => ⟨memRead_length m addr n, fun _ hj => memRead_getD hj m addr⟩,
    fun _ _ _ hm h => ⟨memWrite_wf hm h, fun _ hj => read_memWrite_inside hm h hj,
      fun _ ha => read_memWrite_outside hm h ha, memRead_memWrite_same hm h⟩⟩

/-- Settles O13: a store is one `MemWrite`, and one past the top of memory does nothing. -/
theorem hostStoreWritesItsBytesOnly : Obligations.HostStoreWritesItsBytesOnly := by
  intro s rest addr bytes hm hbus
  refine ⟨fun h => ⟨memWrite s.mem addr.toNat bytes, ?_, memWrite_wf hm h,
    fun _ hj => read_memWrite_inside hm h hj, fun _ ha => read_memWrite_outside hm h ha⟩, fun h => ?_⟩
  · rw [step_of_act hbus]
    exact hostStore_inside h _
  · rw [step_of_act hbus]
    exact hostStore_pastTop (by omega) _

/-! ### The platform's parameters (20_memory.md R69, 60_exceptions.md R230) -/

theorem span_holds_iff (sp : Span) (a : Nat) : sp.holds a = true ↔ sp.base ≤ a ∧ a < sp.base + sp.size := by
  simp [Span.holds]

theorem not_any_span_eq_false_iff (spans : List Span) (a : Nat) :
    (!spans.any fun sp => sp.holds a) = false ↔ ∃ sp ∈ spans, sp.base ≤ a ∧ a < sp.base + sp.size := by
  simp only [Bool.not_eq_false', List.any_eq_true, span_holds_iff]

theorem consultOracle_within {n good : Nat} (h : n ≤ good) (rest : List Nat) :
    consultOracle n (good :: rest) = (false, (good - n) :: rest) := if_neg (by omega)

theorem consultOracle_beyond {n good : Nat} (h : good < n) (rest : List Nat) :
    consultOracle n (good :: rest) = (true, rest) := if_pos h

/-- Where the cipher can fail, the calls do what the oracle says. -/
theorem calls_of_consultOracle {s : State} {n : Nat} {failed : Bool} {o : List Nat}
    (hcan : s.platform.cipherCanFail = true) (h : consultOracle n s.oracle = (failed, o)) :
    cipherFails n s = failed ∧ afterCalls n s = { s with oracle := o } := by
  rw [cipherFails, afterCalls, if_pos hcan, h, hcan]
  exact ⟨rfl, rfl⟩

/-- Settles O60: admission looks a byte up in the spans, and the calls look up the head of the oracle. -/
theorem platformParametersMeanWhatTheyList : Obligations.PlatformParametersMeanWhatTheyList := by
  refine ⟨fun p a =>
      ⟨not_any_span_eq_false_iff p.refusesRead a, not_any_span_eq_false_iff p.refusesWrite a⟩,
    fun s n => ⟨fun hcannot => ⟨cipherFails_of_cannot_fail hcannot, afterCalls_of_cannot_fail hcannot⟩,
      fun hcan => ⟨fun hempty => ?_, fun good rest horacle => ⟨fun hwithin => ?_, fun hbeyond => ?_⟩⟩⟩⟩
  · exact calls_of_consultOracle (o := s.oracle) hcan (by rw [hempty]; rfl)
  · exact calls_of_consultOracle hcan (horacle ▸ consultOracle_within hwithin rest)
  · exact calls_of_consultOracle hcan (horacle ▸ consultOracle_beyond hbeyond rest)

/-! ### The counters of a message (41_formatter.md R114, 43_counter_mode.md R157) -/

/-- Settles O25: a block is 16 = 2^4 bytes. -/
theorem messageCountersFitTheirField : Obligations.MessageCountersFitTheirField := by
  intro n m hlo hhi hm
  have hsplit : 2 ^ (8 * (15 - n)) = 2 ^ (8 * (15 - n) - 4) * 2 ^ 4 := by
    rw [← pow_add, Nat.sub_add_cancel (by omega)]
  have hpos : 0 < 2 ^ (8 * (15 - n) - 4) := by positivity
  rw [hsplit] at hm ⊢
  rw [nblocks]
  generalize 2 ^ (8 * (15 - n) - 4) = blocks at *
  omega

/-- The flags byte and the nonce are the same in every counter block of a nonce. -/
theorem blockCtr_take (nonce : Bytes) (i : Nat) :
    (blockCtr nonce i).take (1 + nonce.length) = BitVec.ofNat 8 (15 - nonce.length - 1) :: nonce := by
  rw [blockCtr_eq, flaggedBlock, Nat.add_comm, List.take_succ_cons, List.take_left]

theorem blockCtr_drop (nonce : Bytes) (i : Nat) :
    (blockCtr nonce i).drop (1 + nonce.length) = be i (15 - nonce.length) := by
  rw [blockCtr_eq, flaggedBlock_drop]

/-- Settles O26: a counter block is its first bytes, which hold no counter, and the counter's field. -/
theorem counterIncrementStaysInItsField : Obligations.CounterIncrementStaysInItsField := by
  intro nonce i j _ _ hi hj
  refine ⟨by rw [blockCtr_take, blockCtr_take], blockCtr_drop nonce i, fun heq => ?_⟩
  have hfield := congrArg (List.drop (1 + nonce.length)) heq
  rw [blockCtr_drop, blockCtr_drop] at hfield
  exact be_injective hi hj hfield

/-! ### FORMAT (41_formatter.md R110, R111) -/

theorem exec_format_completes {s : State} (hctx : s.ctx = .keySet) (hnonce : nonceReady s)
    (htag : tagReady s) (hlen : lengthReady s) :
    exec .format s = .next (complete
      { s with
        b0 := Quad.ofBytes (blockB0 (opNonce s) (opT s) (opA s) (opM s))
        ctr0 := Quad.ofBytes (blockCtr (opNonce s) 0) }) := by
  have hchecks : firstError [checkKeySet s, checkNonceLen s, checkTagLen s, checkMsgLen s] = none := by
    simp only [firstError_eq_none, List.forall_mem_cons, checkKeySet_passes_iff, checkNonceLen_passes_iff,
      checkTagLen_passes_iff, checkMsgLen_passes_iff]
    exact ⟨hctx, hnonce, htag, hlen, List.forall_mem_nil _⟩
  rw [exec, execFormat, validated_pass hchecks]

theorem blockCtr_length {nonce : Bytes} (h : nonce.length ≤ 13) (i : Nat) :
    (blockCtr nonce i).length = 16 := by
  rw [blockCtr_eq, flaggedBlock_length h]

/-- Settles O27: both blocks have 16 bytes, so the groups hold them whole. -/
theorem formatWritesB0AndCtr0 : Obligations.FormatWritesB0AndCtr0 := by
  intro s hctx hnonce htag hlen
  have hn : (opNonce s).length ≤ 13 := by
    rw [opNonce_length]
    exact hnonce.2
  refine ⟨?_, quad_bytes_ofBytes (blockB0_length hn _ _ _), quad_bytes_ofBytes (blockCtr_length hn 0)⟩
  rw [exec_format_completes hctx hnonce htag hlen, complete_of_keySet (by exact hctx)]

end Sys2Proof.Machine
end

section
/-!
PROOFS. The ends of RAWMAC, KEYSTREAM and MASKMAC (42_cbc_mac.md, 43_counter_mode.md, 44_tag_mask_verify.md):
completion with one register group written, and the aborts of 60_exceptions.md R231.
-/
namespace Sys2Proof.Machine

/-! ### The checks of the three commands (60_exceptions.md R226) -/

theorem rawmacChecks_pass {s : State} (hctx : s.ctx = .keySet) (hnonce : nonceReady s) (htag : tagReady s)
    (hlen : lengthReady s) (haad : rangeReady (aadAddr s) (opA s)) (hin : rangeReady (inAddr s) (opM s)) :
    firstError [checkKeySet s, checkNonceLen s, checkTagLen s, checkMsgLen s, checkAadRange s, checkInRange s]
      = none := by
  simp only [firstError_eq_none, List.forall_mem_cons, checkKeySet_passes_iff, checkNonceLen_passes_iff,
    checkTagLen_passes_iff, checkMsgLen_passes_iff, checkAadRange_passes_iff, checkInRange_passes_iff]
  exact ⟨hctx, hnonce, htag, hlen, haad, hin, List.forall_mem_nil _⟩

theorem keystreamChecks_pass {s : State} (hctx : s.ctx = .keySet) (hnonce : nonceReady s)
    (hcounter : opI s < 2 ^ (8 * (15 - opN s))) :
    firstError [checkKeySet s, checkNonceLen s, checkCounter s] = none := by
  simp only [firstError_eq_none, List.forall_mem_cons, checkKeySet_passes_iff, checkNonceLen_passes_iff,
    checkCounter_passes_iff]
  exact ⟨hctx, hnonce, hcounter, List.forall_mem_nil _⟩

theorem maskmacChecks_pass {s : State} (hctx : s.ctx = .keySet) (hnonce : nonceReady s) (htag : tagReady s) :
    firstError [checkKeySet s, checkNonceLen s, checkTagLen s] = none := by
  simp only [firstError_eq_none, List.forall_mem_cons, checkKeySet_passes_iff, checkNonceLen_passes_iff,
    checkTagLen_passes_iff]
  exact ⟨hctx, hnonce, htag, List.forall_mem_nil _⟩

/-! ### Completion -/

/-- Calls of `E` leave CTX as it is. -/
theorem afterCalls_keySet {s : State} (h : s.ctx = .keySet) (n : Nat) : (afterCalls n s).ctx = .keySet :=
  (afterCalls_ctx n s).trans h

/-- The raw MAC of the buffers, with the lengths taken from their registers. -/
theorem rawMac_of_buffers (s : State) :
    rawMac s.keyint (opNonce s) (opT s) (aadBytes s) (inBytes s)
      = cbcMac s.keyint (blockB0 (opNonce s) (opT s) (opA s) (opM s)
          ++ fmtAad (memRead s.mem (aadAddr s) (opA s)) ++ fmtMsg (memRead s.mem (inAddr s) (opM s))) := by
  rw [rawMac, aadBytes_length, inBytes_length]
  rfl

/-- Settles O29: DATA takes the raw MAC of the buffers. -/
theorem rawmacWritesTheRawMac : Obligations.RawmacWritesTheRawMac := by
  intro s h hcalls
  have ⟨hctx, _⟩ := h
  rw [exec_rawmac_completes h hcalls, complete_of_keySet (by exact afterCalls_keySet hctx _),
    rawMac_of_buffers]

/-- Settles O32: the check of CTRL.TAGLEN is not among KEYSTREAM's. -/
theorem keystreamWritesTheBlockOfItsCounter : Obligations.KeystreamWritesTheBlockOfItsCounter := by
  intro s hctx hnonce hcounter hcalls
  rw [exec, execKeystream, validated_pass (keystreamChecks_pass hctx hnonce hcounter), withCalls_ok hcalls,
    complete_of_keySet (by exact afterCalls_keySet hctx _), afterCalls_eq]
  rfl

/-- The bytes of TAG after the tag are zero (44_tag_mask_verify.md R173). -/
theorem tagRegister_drop {tag : Bytes} {t : Nat} (hlen : tag.length = t) (ht : t ≤ 16) :
    (tagRegister tag t).bytes.drop t = zeros (16 - t) := by
  have hfull : (tag ++ zeros (16 - t)).length = 16 := by
    rw [List.length_append, zeros_length, hlen]
    omega
  rw [tagRegister, quad_bytes_ofBytes hfull, List.drop_left' hlen]

theorem maskMac_length {r : Bytes} {t : Nat} (hr : r.length = 16) (ht : t ≤ 16) (key nonce : Bytes) :
    (maskMac key nonce r t).length = t := by
  rw [maskMac, msb_length, xorBytes_length, keystream_length, hr, Nat.min_self, Nat.min_eq_left ht]

/-- Settles O35: the tag has `t` bytes, and zeros follow it. -/
theorem maskmacWritesTheTag : Obligations.MaskmacWritesTheTag := by
  intro s hctx hnonce htag hcalls
  have ht := opT_le_of_tagReady htag
  refine ⟨?_, tagRegister_drop (maskMac_length (quad_bytes_length s.data) ht _ _) ht⟩
  rw [exec_maskmac_completes hctx hnonce htag hcalls, complete_of_keySet (by exact afterCalls_keySet hctx _)]
  rfl

/-! ### Aborts (60_exceptions.md R231) -/

theorem abort_of_keySet {s : State} (h : s.ctx = .keySet) (c : ErrCode) : abort c s
    = { s with status := BitVec.ofNat 32 (3 + 16 * c.code), freeSeed := s.freeSeed + 1 } :=
  raise_of_keySet (s := { s with freeSeed := s.freeSeed + 1 }) h c

theorem exec_rawmac_unreadable {s : State} (hctx : s.ctx = .keySet) (hnonce : nonceReady s)
    (htag : tagReady s) (hlen : lengthReady s) (haad : rangeReady (aadAddr s) (opA s))
    (hin : rangeReady (inAddr s) (opM s)) (hreads : ¬readsAdmitted s = true) :
    exec .rawmac s = .next (abort .bufferFault { s with data := freeQuad s.freeSeed }) := by
  rw [exec, execRawmac, validated_pass (rawmacChecks_pass hctx hnonce htag hlen haad hin), if_neg hreads]

theorem exec_rawmac_cipherFault {s : State} (h : rawmacReady s)
    (hcalls : cipherFails (macBlocks (opA s) (opM s)) s = true) :
    exec .rawmac s = .next (abort .blockCipherFault
      { afterCalls (macBlocks (opA s) (opM s)) s with data := freeQuad s.freeSeed }) := by
  obtain ⟨hctx, hnonce, htag, hlen, haad, hin, hreads⟩ := h
  rw [exec, execRawmac, validated_pass (rawmacChecks_pass hctx hnonce htag hlen haad hin),
    if_pos ((readsAdmitted_iff s).2 hreads), withCalls_fail hcalls, afterCalls_eq]

theorem exec_keystream_cipherFault {s : State} (hctx : s.ctx = .keySet) (hnonce : nonceReady s)
    (hcounter : opI s < 2 ^ (8 * (15 - opN s))) (hcalls : cipherFails 1 s = true) :
    exec .keystream s = .next (abort .blockCipherFault
      { afterCalls 1 s with data := freeQuad s.freeSeed }) := by
  rw [exec, execKeystream, validated_pass (keystreamChecks_pass hctx hnonce hcounter), withCalls_fail hcalls,
    afterCalls_eq]

theorem exec_maskmac_cipherFault {s : State} (hctx : s.ctx = .keySet) (hnonce : nonceReady s)
    (htag : tagReady s) (hcalls : cipherFails 1 s = true) :
    exec .maskmac s = .next (abort .blockCipherFault
      { afterCalls 1 s with tag := freeQuad s.freeSeed }) := by
  rw [exec, execMaskmac, validated_pass (maskmacChecks_pass hctx hnonce htag), withCalls_fail hcalls,
    afterCalls_eq]

/-- Settles O47: the group's value is the draw of the free values. -/
theorem abortsOfRegisterCommands : Obligations.AbortsOfRegisterCommands := by
  intro s hctx hnonce
  have hctx' := afterCalls_keySet hctx
  refine ⟨fun htag hlen haad hin hreads => ⟨freeQuad s.freeSeed, ?_⟩,
    fun h hcalls => ⟨freeQuad s.freeSeed, ?_⟩, fun hcounter hcalls => ⟨freeQuad s.freeSeed, ?_⟩,
    fun htag hcalls => ⟨freeQuad s.freeSeed, ?_⟩⟩
  · rw [exec_rawmac_unreadable hctx hnonce htag hlen haad hin (mt (readsAdmitted_iff s).1 hreads),
      abort_of_keySet (by exact hctx)]
    rfl
  · rw [exec_rawmac_cipherFault h hcalls, abort_of_keySet (by exact hctx' _), afterCalls_freeSeed]
    rfl
  · rw [exec_keystream_cipherFault hctx hnonce hcounter hcalls, abort_of_keySet (by exact hctx' _),
      afterCalls_freeSeed]
    rfl
  · rw [exec_maskmac_cipherFault hctx hnonce htag hcalls, abort_of_keySet (by exact hctx' _),
      afterCalls_freeSeed]
    rfl

end Sys2Proof.Machine
end

section
/-!
PROOFS. Where ENCRYPT and DECRYPT stop, complete and abort (45_context.md R202 to R208, 60_exceptions.md
sections 3 and 4).
-/
namespace Sys2Proof.Machine

/-! ### A command answers a next state, or its buffers overlap (20_memory.md R70) -/

theorem validated_answers {s : State} {execution : State → Out} (h : ∃ t, execution s = .next t)
    (checks : List Check) : ∃ t, validated checks execution s = .next t := by
  rcases validated_cases (Eq.refl (validated checks execution s)) with ⟨c, -, hfail⟩ | ⟨-, hpass⟩
  · exact ⟨_, hfail⟩
  · rwa [← hpass]

theorem withCalls_answers {n : Nat} {s : State} {onFailure onSuccess : State → Out}
    (hfailure : ∀ u, ∃ t, onFailure u = .next t) (hsuccess : ∀ u, ∃ t, onSuccess u = .next t) :
    ∃ t, withCalls n onFailure onSuccess s = .next t := by
  rcases withCalls_cases (Eq.refl (withCalls n onFailure onSuccess s)) with ⟨-, hcall⟩ | ⟨-, hcall⟩
  · rw [← hcall]
    exact hfailure _
  · rw [← hcall]
    exact hsuccess _

theorem execSetkey_answers (s : State) : ∃ t, execSetkey s = .next t := by
  apply validated_answers
  exact ⟨_, rfl⟩

theorem execFormat_answers (s : State) : ∃ t, execFormat s = .next t := by
  apply validated_answers
  exact ⟨_, rfl⟩

theorem execRawmac_answers (s : State) : ∃ t, execRawmac s = .next t := by
  apply validated_answers
  by_cases hreads : readsAdmitted s = true
  · rw [if_pos hreads]
    exact withCalls_answers (fun _ => ⟨_, rfl⟩) fun _ => ⟨_, rfl⟩
  · rw [if_neg hreads]
    exact ⟨_, rfl⟩

theorem execKeystream_answers (s : State) : ∃ t, execKeystream s = .next t := by
  apply validated_answers
  exact withCalls_answers (fun _ => ⟨_, rfl⟩) fun _ => ⟨_, rfl⟩

theorem execMaskmac_answers (s : State) : ∃ t, execMaskmac s = .next t := by
  apply validated_answers
  exact withCalls_answers (fun _ => ⟨_, rfl⟩) fun _ => ⟨_, rfl⟩

theorem execVerify_answers (s : State) : ∃ t, execVerify s = .next t := by
  apply validated_answers
  by_cases hequal : ctEqual s.data.bytes s.tag.bytes (opT s) = true
  · rw [if_pos hequal]
    exact ⟨_, rfl⟩
  · rw [if_neg hequal]
    exact ⟨_, rfl⟩

/-- The command is ENCRYPT or DECRYPT, its checks pass, and its buffers overlap outside the defined cases. -/
def OverlapRefused (i : Instr) (s : State) : Prop :=
  (i = .encrypt ∨ i = .decrypt) ∧ messageValid s ∧ ¬buffersPlaced s

theorem exec_answers_or_overlaps (i : Instr) (s : State) :
    (∃ t, exec i s = .next t) ∨ (OverlapRefused i s ∧ exec i s = .refused .overlappingBuffers) := by
  cases i with
  | setkey => exact .inl (execSetkey_answers s)
  | free => exact .inl ⟨_, exec_free s⟩
  | format => exact .inl (execFormat_answers s)
  | rawmac => exact .inl (execRawmac_answers s)
  | keystream => exact .inl (execKeystream_answers s)
  | maskmac => exact .inl (execMaskmac_answers s)
  | verify => exact .inl (execVerify_answers s)
  | encrypt =>
    have hend : EncryptEnd s (exec .encrypt s) := execEncrypt_ends s
    generalize exec .encrypt s = o at hend ⊢
    cases hend with
    | overlap hvalid hnot => exact .inr ⟨⟨.inl rfl, hvalid, hnot⟩, rfl⟩
    | invalid | aborted | done => exact .inl ⟨_, rfl⟩
  | decrypt =>
    have hend : DecryptEnd s (exec .decrypt s) := execDecrypt_ends s
    generalize exec .decrypt s = o at hend ⊢
    cases hend with
    | overlap hvalid hnot => exact .inr ⟨⟨.inr rfl, hvalid, hnot⟩, rfl⟩
    | invalid | aborted | done | unequal => exact .inl ⟨_, rfl⟩

/-- The refusal comes right after the checks (log 10). -/
theorem exec_of_overlapRefused {i : Instr} {s : State} (h : OverlapRefused i s) :
    exec i s = .refused .overlappingBuffers := by
  obtain ⟨hi, hvalid, hnot⟩ := h
  have hchecks := (messageChecks_none_iff s).2 hvalid
  have hoverlap : overlapDefined s = false := Bool.eq_false_iff.2 (mt (overlapDefined_iff s).1 hnot)
  rcases hi with rfl | rfl
  · rw [exec, execEncrypt, validated_pass hchecks, if_pos (by simp [hoverlap])]
  · rw [exec, execDecrypt, validated_pass hchecks, if_pos (by simp [hoverlap])]

/-- Settles O43: a command that does not answer a next state has such an overlap, and each such overlap is
refused. -/
theorem commandsStopOnlyOnUndefinedOverlap : Obligations.CommandsStopOnlyOnUndefinedOverlap := by
  intro s i
  refine ⟨fun r => ⟨fun hrefused => ?_, ?_⟩, fun f hfault => ?_⟩
  · rcases exec_answers_or_overlaps i s with ⟨t, hnext⟩ | ⟨⟨hi, hvalid, hnot⟩, hoverlap⟩
    · exact nomatch hnext.symm.trans hrefused
    · cases hoverlap.symm.trans hrefused
      exact ⟨hi, hvalid, hnot, rfl⟩
  · rintro ⟨hi, hvalid, hnot, rfl⟩
    exact exec_of_overlapRefused ⟨hi, hvalid, hnot⟩
  · rcases exec_answers_or_overlaps i s with ⟨t, hnext⟩ | ⟨-, hoverlap⟩
    · exact nomatch hnext.symm.trans hfault
    · exact nomatch hoverlap.symm.trans hfault

/-! ### Completion -/

/-- The tag that ENCRYPT writes is the tag of Sys2Proof/Safety.lean, followed by zeros (R203). -/
theorem tagRegister_encrypted (s : State) : tagRegister (encrypted s).2 (opT s)
    = Quad.ofBytes (tagOver s (memRead s.mem (inAddr s) (opM s)) ++ zeros (16 - opT s)) :=
  congrArg (fun tag => Quad.ofBytes (tag ++ zeros (16 - opT s))) (ccmTag_eq_tagOver s (inBytes s))

/-- Settles O45: the command's own strings are those of the statement. -/
theorem encryptWritesCiphertextAndTag : Obligations.EncryptWritesCiphertextAndTag := by
  intro s hvalid hplaced hadmitted hcalls
  have ⟨hctx, _⟩ := hvalid
  rw [exec_encrypt_completes hvalid hplaced hadmitted hcalls,
    complete_of_keySet (by exact afterCalls_keySet hctx _), tagRegister_encrypted]
  rfl

/-- The second pass on a match, where nothing stops it (R206). -/
theorem releasePlaintext_completes {s : State} (hcalls : cipherFails (nblocks (opM s)) s = false)
    (hwrites : writesAdmitted s = true) :
    releasePlaintext s = .next (complete
      { afterCalls (nblocks (opM s)) s with mem := memWrite s.mem (outAddr s) (recovered s) }) := by
  rw [releasePlaintext, withCalls_ok hcalls, if_neg (by simp [hwrites]), afterCalls_eq]
  rfl

@[simp] theorem opM_afterCalls (n : Nat) (s : State) : opM (afterCalls n s) = opM s := by
  rw [opM, afterCalls_mlen, opM]

@[simp] theorem outAddr_afterCalls (n : Nat) (s : State) : outAddr (afterCalls n s) = outAddr s := by
  rw [outAddr, afterCalls_outaddr, outAddr]

@[simp] theorem recovered_afterCalls (n : Nat) (s : State) : recovered (afterCalls n s) = recovered s := by
  rw [afterCalls_eq]
  rfl

/-- Where nothing stops DECRYPT and the tags are equal, it writes the plaintext (R205, R206). -/
theorem exec_decrypt_match {s : State} (hvalid : messageValid s) (hplaced : buffersPlaced s)
    (hmade : comparisonMade s = true) (hmatch : tagsMatch s = true)
    (hcalls : cipherFails (nblocks (opM s)) (afterCalls (passCalls s) s) = false)
    (hwrites : admitted s .write (outAddr s) (opM s)) :
    exec .decrypt s = .next (complete
      { afterCalls (nblocks (opM s)) (afterCalls (passCalls s) s) with
        mem := memWrite s.mem (outAddr s) (recovered s) }) := by
  have hwrites' : writesAdmitted (afterCalls (passCalls s) s) = true := by
    rw [writesAdmitted_afterCalls, writesAdmitted_iff]
    exact hwrites
  rw [exec_decrypt_of_comparisonMade hvalid hplaced hmade, if_pos hmatch,
    releasePlaintext_completes (by rwa [opM_afterCalls]) hwrites', opM_afterCalls, outAddr_afterCalls,
    recovered_afterCalls, afterCalls_mem]

/-- Settles O49: equal tags let the second pass write the plaintext. -/
theorem decryptReleasesThePlaintextOnAMatch : Obligations.DecryptReleasesThePlaintextOnAMatch := by
  intro s hvalid hplaced hadmitted hfirst hsecond hequal
  obtain ⟨hreadAad, hreadIn, hwrites⟩ := hadmitted
  have hmade := (comparisonMade_iff_firstPassDone s).2 ⟨hreadAad, hreadIn, hfirst⟩
  have hcompletes := fun hmatch => exec_decrypt_match hvalid hplaced hmade hmatch hsecond hwrites
  obtain ⟨hctx, -, htag, -⟩ := hvalid
  rw [hcompletes ((tagsMatch_iff htag).2 hequal),
    complete_of_keySet (by exact afterCalls_keySet (afterCalls_keySet hctx _) _)]
  rfl

/-! ### The commands and the whole-message functions (R200, R201) -/

/-- `CcmDecrypt` of DECRYPT's operands fails exactly where DECRYPT's comparison does. -/
theorem ccmDecrypt_operands (s : State) :
    ccmDecrypt s.keyint (opNonce s) (memRead s.mem (aadAddr s) (opA s)) (memRead s.mem (inAddr s) (opM s))
        (msb (opT s) s.tag.bytes) (opT s)
      = if tagsMatch s then some (recovered s) else none := rfl

/-- Settles O59: a cipher that cannot fail leaves the oracle as it is. -/
theorem messageCommandsComputeCcm : Obligations.MessageCommandsComputeCcm := by
  intro s hvalid hplaced hadmitted hcipher
  have ⟨hctx, _⟩ := hvalid
  have hcalls := fun n => cipherFails_of_cannot_fail (n := n) hcipher
  have hsame := fun n => afterCalls_of_cannot_fail (n := n) hcipher
  constructor
  · rw [exec_encrypt_completes hvalid hplaced hadmitted (hcalls _), hsame,
      complete_of_keySet (by exact hctx)]
    rfl
  · obtain ⟨hreadAad, hreadIn, hwrites⟩ := hadmitted
    have hmade := (comparisonMade_iff_firstPassDone s).2 ⟨hreadAad, hreadIn, hcalls _⟩
    rw [ccmDecrypt_operands]
    by_cases hmatch : tagsMatch s = true
    · rw [if_pos hmatch, exec_decrypt_match hvalid hplaced hmade hmatch (by rw [hsame, hcalls]) hwrites,
        hsame, hsame, complete_of_keySet (by exact hctx)]
    · rw [if_neg hmatch, exec_decrypt_mismatch hvalid hplaced hmade hmatch hwrites, hsame,
        raise_of_keySet (by exact hctx)]
      rfl

/-! ### Aborts (60_exceptions.md R231 to R233) -/

theorem abortEncrypt_status {s : State} (h : s.ctx = .keySet) (c : ErrCode) :
    (abortEncrypt c s).status = BitVec.ofNat 32 (3 + 16 * c.code) := by
  rw [abortEncrypt, abort_status, h]
  rfl

theorem abortDecrypt_status {s : State} (h : s.ctx = .keySet) (matched : Bool) (c : ErrCode) :
    (abortDecrypt matched c s).status = BitVec.ofNat 32 (3 + 16 * c.code) := by
  rw [abortDecrypt, abort_status, h]
  rfl

theorem exec_encrypt_unreadable {s : State} (hvalid : messageValid s) (hplaced : buffersPlaced s)
    (hreads : ¬readsAdmitted s = true) : exec .encrypt s = .next (abortEncrypt .bufferFault s) := by
  have hoverlap := (overlapDefined_iff s).2 hplaced
  rw [exec, execEncrypt, validated_pass ((messageChecks_none_iff s).2 hvalid), if_neg (by simp [hoverlap]),
    if_pos (by simp [hreads])]

theorem exec_decrypt_unreadable {s : State} (hvalid : messageValid s) (hplaced : buffersPlaced s)
    (hreads : ¬readsAdmitted s = true) : exec .decrypt s = .next (abortDecrypt false .bufferFault s) := by
  have hoverlap := (overlapDefined_iff s).2 hplaced
  rw [exec, execDecrypt, validated_pass ((messageChecks_none_iff s).2 hvalid), if_neg (by simp [hoverlap]),
    if_pos (by simp [hreads])]

theorem exec_encrypt_cipherFault {s : State} (hvalid : messageValid s) (hplaced : buffersPlaced s)
    (hreads : readsAdmitted s = true) (hcalls : cipherFails (passCalls s) s = true) :
    exec .encrypt s = .next (abortEncrypt .blockCipherFault (afterCalls (passCalls s) s)) := by
  have hoverlap := (overlapDefined_iff s).2 hplaced
  rw [exec, execEncrypt, validated_pass ((messageChecks_none_iff s).2 hvalid), if_neg (by simp [hoverlap]),
    if_neg (by simp [hreads]), withCalls_fail hcalls]

theorem exec_decrypt_cipherFault {s : State} (hvalid : messageValid s) (hplaced : buffersPlaced s)
    (hreads : readsAdmitted s = true) (hcalls : cipherFails (passCalls s) s = true) :
    exec .decrypt s = .next (abortDecrypt false .blockCipherFault (afterCalls (passCalls s) s)) := by
  have hoverlap := (overlapDefined_iff s).2 hplaced
  rw [exec, execDecrypt, validated_pass ((messageChecks_none_iff s).2 hvalid), if_neg (by simp [hoverlap]),
    if_neg (by simp [hreads]), withCalls_fail hcalls]

theorem exec_encrypt_unwritable {s : State} (hvalid : messageValid s) (hplaced : buffersPlaced s)
    (hmade : comparisonMade s = true) (hwrites : ¬writesAdmitted s = true) :
    exec .encrypt s = .next (abortEncrypt .bufferFault (afterCalls (passCalls s) s)) := by
  obtain ⟨hreads, hcalls⟩ := (comparisonMade_iff s).1 hmade
  have hoverlap := (overlapDefined_iff s).2 hplaced
  rw [exec, execEncrypt, validated_pass ((messageChecks_none_iff s).2 hvalid), if_neg (by simp [hoverlap]),
    if_neg (by simp [hreads]), withCalls_ok hcalls, if_pos (by simp [hwrites])]

theorem releasePlaintext_cipherFault {s : State} (hcalls : cipherFails (nblocks (opM s)) s = true) :
    releasePlaintext s = .next (abortDecrypt true .blockCipherFault (afterCalls (nblocks (opM s)) s)) := by
  rw [releasePlaintext, withCalls_fail hcalls]

theorem releasePlaintext_unwritable {s : State} (hcalls : cipherFails (nblocks (opM s)) s = false)
    (hwrites : ¬writesAdmitted s = true) :
    releasePlaintext s = .next (abortDecrypt true .bufferFault (afterCalls (nblocks (opM s)) s)) := by
  rw [releasePlaintext, withCalls_ok hcalls, if_pos (by simp [hwrites])]

theorem zeroOutput_unwritable {s : State} (hwrites : ¬writesAdmitted s = true) :
    zeroOutput s = .next (abortDecrypt false .bufferFault s) := by
  rw [zeroOutput, if_pos (by simp [hwrites])]

/-- Settles O48: one of the lemmas above for each place of an abort. -/
theorem abortCodesOfMessageCommands : Obligations.AbortCodesOfMessageCommands := by
  intro s i hi hvalid hplaced
  have ⟨hctx, _, htag, _⟩ := hvalid
  have hafter := afterCalls_keySet hctx
  have hdecrypt := exec_decrypt_of_comparisonMade hvalid hplaced
  refine ⟨?unreadable, ?cipherFault, ?unwritable, ?secondPass, ?zeroing⟩
  case unreadable =>
    intro hreads
    have hreads' := mt (readsAdmitted_iff s).1 hreads
    rcases hi with rfl | rfl
    · exact ⟨_, exec_encrypt_unreadable hvalid hplaced hreads', abortEncrypt_status hctx _⟩
    · exact ⟨_, exec_decrypt_unreadable hvalid hplaced hreads', abortDecrypt_status hctx _ _⟩
  case cipherFault =>
    intro hreadAad hreadIn hcalls
    have hreads' := (readsAdmitted_iff s).2 ⟨hreadAad, hreadIn⟩
    rcases hi with rfl | rfl
    · exact ⟨_, exec_encrypt_cipherFault hvalid hplaced hreads' hcalls, abortEncrypt_status (hafter _) _⟩
    · exact ⟨_, exec_decrypt_cipherFault hvalid hplaced hreads' hcalls, abortDecrypt_status (hafter _) _ _⟩
  case unwritable =>
    rintro hdone rfl hwrites
    exact ⟨_, exec_encrypt_unwritable hvalid hplaced ((comparisonMade_iff_firstPassDone s).2 hdone)
      (mt (writesAdmitted_iff s).1 hwrites), abortEncrypt_status (hafter _) _⟩
  case secondPass =>
    rintro hdone rfl hequal
    rw [hdecrypt ((comparisonMade_iff_firstPassDone s).2 hdone), if_pos ((tagsMatch_iff htag).2 hequal)]
    refine ⟨fun hcalls => ?_, fun hcalls hwrites => ?_⟩
    · exact ⟨_, releasePlaintext_cipherFault (by rwa [opM_afterCalls]),
        abortDecrypt_status (afterCalls_keySet (hafter _) _) _ _⟩
    · exact ⟨_, releasePlaintext_unwritable (by rwa [opM_afterCalls])
          (by rwa [writesAdmitted_afterCalls, writesAdmitted_iff]),
        abortDecrypt_status (afterCalls_keySet (hafter _) _) _ _⟩
  case zeroing =>
    rintro hdone rfl hne hwrites
    rw [hdecrypt ((comparisonMade_iff_firstPassDone s).2 hdone), if_neg (mt (tagsMatch_iff htag).1 hne)]
    exact ⟨_, zeroOutput_unwritable (by rwa [writesAdmitted_afterCalls, writesAdmitted_iff]),
      abortDecrypt_status (hafter _) _ _⟩

end Sys2Proof.Machine
end

section
/-!
PROOFS. What ENCRYPT, DECRYPT and a reset during them leave in the state (45_context.md R202 to R208,
60_exceptions.md R231, 70_reset_and_hazards.md R252), and the round trip in place.
-/
namespace Sys2Proof.Machine

/-! ### A string written to the output range -/

/-- The output range holds the string written to it, and every other byte is as before. -/
theorem read_output {s : State} (hwf : s.mem.wf = true) (hvalid : messageValid s) {b : Bytes}
    (hb : b.length = opM s) (a : Nat) :
    (memWrite s.mem (outAddr s) b).read a
      = if inOutput s a then b.getD (a - outAddr s) 0 else s.mem.read a := by
  obtain ⟨-, -, -, -, -, -, hrange⟩ := hvalid
  rw [read_memWrite hwf (hb ▸ outAddr_add_opM_le hrange), hb]

theorem read_output_outside {s : State} (hwf : s.mem.wf = true) (hvalid : messageValid s) {b : Bytes}
    (hb : b.length = opM s) {a : Nat} (ha : ¬inOutput s a) :
    (memWrite s.mem (outAddr s) b).read a = s.mem.read a := by
  rw [read_output hwf hvalid hb, if_neg ha]

theorem read_output_inside {s : State} (hwf : s.mem.wf = true) (hvalid : messageValid s) {b : Bytes}
    (hb : b.length = opM s) {a : Nat} (ha : inOutput s a) :
    (memWrite s.mem (outAddr s) b).read a = b.getD (a - outAddr s) 0 := by
  rw [read_output hwf hvalid hb, if_pos ha]

/-- What the output range held before. -/
theorem outBytes_getD {s : State} {a : Nat} (ha : inOutput s a) :
    (outBytes s).getD (a - outAddr s) 0 = s.mem.read a := by
  obtain ⟨hlo, hhi⟩ := ha
  rw [outBytes, memRead_getD (by omega), Nat.add_sub_cancel' hlo]

/-- A byte of ENCRYPT's output range after an abort (60_exceptions.md R231). -/
theorem abortOutEncrypt_getD {s : State} {a : Nat} (ha : inOutput s a) :
    (abortOutEncrypt s).getD (a - outAddr s) 0 = s.mem.read a
      ∨ (abortOutEncrypt s).getD (a - outAddr s) 0 = (transformedInput s).getD (a - outAddr s) 0 := by
  rw [abortOutEncrypt, abortBytes_getD _ _ _ _ (by rw [outBytes_length]; omega), outBytes_getD ha]
  exact abortByteEncrypt_cases _ _ _

/-- A byte of DECRYPT's output range after an abort (60_exceptions.md R231). -/
theorem abortOutDecrypt_getD {s : State} {a : Nat} (ha : inOutput s a) (matched : Bool) :
    (abortOutDecrypt matched s).getD (a - outAddr s) 0 = s.mem.read a
      ∨ (abortOutDecrypt matched s).getD (a - outAddr s) 0 = 0
      ∨ (matched = true
        ∧ (abortOutDecrypt matched s).getD (a - outAddr s) 0
          = (transformedInput s).getD (a - outAddr s) 0) := by
  rw [abortOutDecrypt, abortBytes_getD _ _ _ _ (by rw [outBytes_length]; omega), outBytes_getD ha]
  exact abortByteDecrypt_cases _ _ _ _

/-! ### What ENCRYPT leaves -/

/-- The tag an aborted ENCRYPT leaves is the old one or the new one (60_exceptions.md R231). -/
theorem abortEncrypt_tag_cases (c : ErrCode) (s : State) :
    (abortEncrypt c s).tag = s.tag ∨ (abortEncrypt c s).tag = tagRegister (encrypted s).2 (opT s) := by
  rw [abortEncrypt, abort_tag]
  cases Config.freeTag s.freeSeed with
  | false => exact .inl rfl
  | true => exact .inr rfl

theorem statusErr_error_ne_zero (ctx : Ctx) (c : ErrCode) : statusErr (statusValue ctx (some c)) ≠ 0 := by
  rw [statusErr_error]
  decide

/-- Settles O46, end by end. -/
theorem encryptChangesOnlyItsOutput : Obligations.EncryptChangesOnlyItsOutput := by
  intro s t hwf hexec
  have hend : EncryptEnd s (.next t) := hexec ▸ execEncrypt_ends s
  rw [← tagRegister_encrypted]
  cases hend with
  | invalid c =>
    exact ⟨rfl, fun _ _ => rfl, fun _ _ => .inl rfl, .inl rfl,
      fun hok => absurd hok (statusErr_error_ne_zero _ _)⟩
  | aborted hvalid _ c _ o =>
    have hlen := abortOutEncrypt_length { s with oracle := o }
    refine ⟨rfl, fun a ha => read_output_outside hwf hvalid hlen ha, fun a ha => ?_,
      abortEncrypt_tag_cases c { s with oracle := o }, fun hok => absurd hok (statusErr_error_ne_zero _ _)⟩
    have hread := read_output_inside hwf hvalid hlen ha
    exact (abortOutEncrypt_getD (s := { s with oracle := o }) ha).imp hread.trans hread.trans
  | done hvalid _ o =>
    have hlen := encrypted_length s
    exact ⟨rfl, fun a ha => read_output_outside hwf hvalid hlen ha,
      fun a ha => .inr (read_output_inside hwf hvalid hlen ha), .inr rfl,
      fun _ => ⟨fun a ha => read_output_inside hwf hvalid hlen ha, rfl⟩⟩

/-! ### What DECRYPT leaves -/

/-- The comparison was made and the tags are equal, in the words of the statements. -/
theorem verified_of_comparison {s : State} (hvalid : messageValid s) (hmade : comparisonMade s = true)
    (hmatch : tagsMatch s = true) : firstPassDone s ∧ tagsEqual s := by
  obtain ⟨-, -, htag, -⟩ := hvalid
  exact ⟨(comparisonMade_iff_firstPassDone s).1 hmade, (tagsMatch_iff htag).1 hmatch⟩

/-- Settles O51, end by end: the plaintext is written after a comparison that found the tags equal, and no
abort or mismatch writes it otherwise. -/
theorem decryptNeverReleasesUnverifiedPlaintext : Obligations.DecryptNeverReleasesUnverifiedPlaintext := by
  intro s t hwf hexec
  have hend : DecryptEnd s (.next t) := hexec ▸ execDecrypt_ends s
  cases hend with
  | invalid c => exact ⟨rfl, fun _ _ => rfl, fun _ _ => .inl rfl⟩
  | aborted hvalid _ matched hmatched c _ o =>
    have hlen := abortOutDecrypt_length matched { s with oracle := o }
    refine ⟨rfl, fun a ha => read_output_outside hwf hvalid hlen ha, fun a ha => ?_⟩
    have hread := read_output_inside hwf hvalid hlen ha
    refine (abortOutDecrypt_getD (s := { s with oracle := o }) ha matched).imp hread.trans
      (Or.imp hread.trans fun ⟨hm, hplain⟩ => ?_)
    obtain ⟨hmade, hmatch⟩ := hmatched hm
    obtain ⟨hdone, hequal⟩ := verified_of_comparison hvalid hmade hmatch
    exact ⟨hdone, hequal, hread.trans hplain⟩
  | done hvalid _ hmade hmatch o =>
    have hlen := recovered_length s
    obtain ⟨hdone, hequal⟩ := verified_of_comparison hvalid hmade hmatch
    exact ⟨rfl, fun a ha => read_output_outside hwf hvalid hlen ha,
      fun a ha => .inr (.inr ⟨hdone, hequal, read_output_inside hwf hvalid hlen ha⟩)⟩
  | unequal hvalid _ _ _ o =>
    have hlen := zeros_length (opM s)
    exact ⟨rfl, fun a ha => read_output_outside hwf hvalid hlen ha,
      fun a ha => .inr (.inl ((read_output_inside hwf hvalid hlen ha).trans (zeros_getD _ _)))⟩

/-! ### What a reset during a command leaves (70_reset_and_hazards.md R252) -/

/-- A byte of the output range that a reset leaves of a message command cut short. -/
theorem cutOutput_getD {i : Instr} (hi : i = .encrypt ∨ i = .decrypt) {s : State} (hvalid : messageValid s)
    {a : Nat} (ha : inOutput s a) :
    (cutOutput i s).getD (a - outAddr s) 0 = s.mem.read a
      ∨ (i = .encrypt
        ∧ (cutOutput i s).getD (a - outAddr s) 0 = (transformedInput s).getD (a - outAddr s) 0)
      ∨ (i = .decrypt ∧ ((cutOutput i s).getD (a - outAddr s) 0 = 0
        ∨ (firstPassDone s ∧ tagsEqual s
          ∧ (cutOutput i s).getD (a - outAddr s) 0 = (transformedInput s).getD (a - outAddr s) 0))) := by
  rcases hi with rfl | rfl
  · exact (abortOutEncrypt_getD ha).imp_right fun hcipher => .inl ⟨rfl, hcipher⟩
  · refine (abortOutDecrypt_getD ha _).imp_right fun hrest => .inr ⟨rfl, hrest.imp_right ?_⟩
    rintro ⟨hmatched, hplain⟩
    obtain ⟨hmade, hmatch⟩ := Bool.and_eq_true_iff.1 hmatched
    obtain ⟨hdone, hequal⟩ := verified_of_comparison hvalid hmade hmatch
    exact ⟨hdone, hequal, hplain⟩

theorem step_resetDuring {s : State} {w : Word} {rest : List HostAction}
    (hbus : s.bus = .resetDuring w :: rest) :
    ResetEnd w { s with bus := rest, reply := none } (step s) := by
  rw [step_of_act hbus]
  exact resetDuringCommand_ends w _

/-- Settles O16: a reset that goes on is `platformReset`, of the memory as it was or with the output range of
ENCRYPT or DECRYPT cut short. -/
theorem resetDuringACommand : Obligations.ResetDuringACommand := by
  intro s rest w hwf hbus
  have hend := step_resetDuring hbus
  refine ⟨fun hplaced => ?_, fun t hstep => ?_⟩
  · generalize step s = o at hend ⊢
    cases hend with
    | plain | cut => exact ⟨_, rfl⟩
    | overlap hnot => exact absurd hplaced hnot
  · rw [hstep] at hend
    cases hend with
    | plain => exact ⟨fun r => readReg_platformReset r _, rfl, rfl, rfl, fun _ => .inl rfl⟩
    | cut i hw hi hvalid _ =>
      refine ⟨fun r => readReg_platformReset r _, rfl, rfl, rfl, fun a => ?_⟩
      have hlen := cutOutput_length hi { s with bus := rest, reply := none }
      rw [decode_eq_command_iff_eq_encode] at hw
      by_cases ha : inOutput s a
      · have hread := read_output_inside hwf hvalid hlen ha
        refine (cutOutput_getD ((writesBuffer_iff i).1 hi) hvalid ha).imp hread.trans fun hcut =>
          ⟨hvalid, ha, hcut.imp ?_ ?_⟩
        · rintro ⟨rfl, hcipher⟩
          exact ⟨hw, hread.trans hcipher⟩
        · rintro ⟨rfl, hplain⟩
          exact ⟨hw, hplain.imp hread.trans fun ⟨hdone, hequal, hbyte⟩ =>
            ⟨hdone, hequal, hread.trans hbyte⟩⟩
      · exact .inl (read_output_outside hwf hvalid hlen ha)

/-! ### ENCRYPT in place, then DECRYPT -/

theorem memRead_congr {m m' : Memory} {addr n : Nat} (h : ∀ j < n, m.read (addr + j) = m'.read (addr + j)) :
    memRead m addr n = memRead m' addr n :=
  List.map_congr_left fun _ hj => h _ (List.mem_range.1 hj)

/-- No byte of the AAD lies in the output range of placed buffers. -/
theorem aad_not_inOutput {s : State} (hplaced : buffersPlaced s) {j : Nat} (hj : j < opA s) :
    ¬inOutput s (aadAddr s + j) := by
  rintro ⟨hlo, hhi⟩
  obtain ⟨-, hapart⟩ := hplaced
  exact hapart (by omega) (by omega) (aadAddr s + j) ⟨by omega, by omega, hlo, hhi⟩

/-- The state a completed ENCRYPT leaves where the cipher cannot fail. -/
def encryptedState (s : State) : State :=
  complete { s with
    mem := memWrite s.mem (outAddr s) (encrypted s).1
    tag := tagRegister (encrypted s).2 (opT s) }

theorem exec_encrypt_eq_encryptedState {s : State} (hvalid : messageValid s) (hplaced : buffersPlaced s)
    (hadmitted : messageAdmitted s) (hcipher : s.platform.cipherCanFail = false) :
    exec .encrypt s = .next (encryptedState s) := by
  rw [exec_encrypt_completes hvalid hplaced hadmitted (cipherFails_of_cannot_fail hcipher),
    afterCalls_of_cannot_fail hcipher, encryptedState]

theorem aadBytes_encryptedState {s : State} (hwf : s.mem.wf = true) (hvalid : messageValid s)
    (hplaced : buffersPlaced s) : aadBytes (encryptedState s) = aadBytes s :=
  memRead_congr fun _ hj =>
    read_output_outside hwf hvalid (encrypted_length s) (aad_not_inOutput hplaced hj)

/-- In place, DECRYPT's input is ENCRYPT's output. -/
theorem inBytes_encryptedState {s : State} (hwf : s.mem.wf = true) (hvalid : messageValid s)
    (hinPlace : inAddr s = outAddr s) : inBytes (encryptedState s) = (encrypted s).1 := by
  obtain ⟨-, -, -, -, -, -, hrange⟩ := hvalid
  have hlen := encrypted_length s
  have hread := memRead_memWrite_same hwf (addr := outAddr s) (s := (encrypted s).1)
    (hlen ▸ outAddr_add_opM_le hrange)
  rw [hlen] at hread
  rw [← hread]
  exact congrArg (memRead _ · _) hinPlace

theorem recovered_encryptedState {s : State} (hwf : s.mem.wf = true) (hvalid : messageValid s)
    (hinPlace : inAddr s = outAddr s) : recovered (encryptedState s) = inBytes s := by
  rw [recovered, inBytes_encryptedState hwf hvalid hinPlace]
  exact ctrCrypt_ctrCrypt s.keyint (opNonce s) (inBytes s)

/-- DECRYPT expects the tag that ENCRYPT left in TAG. -/
theorem tagsMatch_encryptedState {s : State} (hwf : s.mem.wf = true) (hvalid : messageValid s)
    (hplaced : buffersPlaced s) (hinPlace : inAddr s = outAddr s) :
    tagsMatch (encryptedState s) = true := by
  have hexpected : expectedTag (encryptedState s) = (encrypted s).2 := by
    rw [expectedTag, aadBytes_encryptedState hwf hvalid hplaced,
      recovered_encryptedState hwf hvalid hinPlace]
    rfl
  have hsupplied : suppliedTag (encryptedState s) = (encrypted s).2 := by
    obtain ⟨-, -, htag, -⟩ := hvalid
    have ht := opT_le_of_tagReady htag
    have hlen : (encrypted s).2.length = opT s := (ccmTag_length _ _ _ _ _).trans (Nat.min_eq_left ht)
    exact msb_tagRegister hlen ht
  rw [tagsMatch, hexpected, hsupplied]
  exact ctEqual_self _ _

/-- Writing the input back over the output range, in place, restores the memory. -/
theorem read_restored {s : State} (hwf : s.mem.wf = true) (hvalid : messageValid s)
    (hinPlace : inAddr s = outAddr s) (a : Nat) :
    (memWrite (encryptedState s).mem (outAddr s) (inBytes s)).read a = s.mem.read a := by
  have hwf' : (encryptedState s).mem.wf = true := by
    obtain ⟨-, -, -, -, -, -, hrange⟩ := hvalid
    exact memWrite_wf hwf ((encrypted_length s).symm ▸ outAddr_add_opM_le hrange)
  have hread := read_output (s := encryptedState s) hwf' hvalid (inBytes_length s) a
  refine hread.trans ?_
  split
  case isTrue ha =>
    obtain ⟨hlo, hhi⟩ : inOutput s a := ha
    have hbyte : (inBytes s).getD (a - outAddr s) 0 = s.mem.read (inAddr s + (a - outAddr s)) :=
      memRead_getD (by omega) s.mem (inAddr s)
    rw [hinPlace, Nat.add_sub_cancel' hlo] at hbyte
    exact hbyte
  case isFalse ha => exact read_output_outside hwf hvalid (encrypted_length s) ha

/-- Settles O53: DECRYPT reads the ciphertext where ENCRYPT wrote it, finds its tag, and writes the message
back. -/
theorem inPlaceRoundTripRestoresMemory : Obligations.InPlaceRoundTripRestoresMemory := by
  intro s hwf hvalid hinPlace hplaced hadmitted hcipher
  have ⟨haad, hin, hwrites⟩ := hadmitted
  have hmade : comparisonMade (encryptedState s) = true :=
    (comparisonMade_iff_firstPassDone _).2 ⟨haad, hin, cipherFails_of_cannot_fail hcipher⟩
  have hcalls : ∀ n, cipherFails n (afterCalls (passCalls (encryptedState s)) (encryptedState s)) = false :=
    fun n => cipherFails_of_cannot_fail ((congrArg _ (afterCalls_platform _ _)).trans hcipher)
  have hdecrypt := exec_decrypt_match (s := encryptedState s) hvalid hplaced hmade
    (tagsMatch_encryptedState hwf hvalid hplaced hinPlace) (hcalls _) hwrites
  rw [recovered_encryptedState hwf hvalid hinPlace] at hdecrypt
  refine ⟨_, _, exec_encrypt_eq_encryptedState hvalid hplaced hadmitted hcipher, hdecrypt, ?_, ?_,
    read_restored hwf hvalid hinPlace⟩
  · obtain ⟨hctx, -⟩ : messageValid (encryptedState s) := hvalid
    rw [complete_of_keySet (by exact afterCalls_keySet (afterCalls_keySet hctx _) _)]
  · simp

end Sys2Proof.Machine
end

section
/-!
PROOFS. Registers that play no part: the address of an empty buffer (20_memory.md R63), and the block
registers and the key staging for ENCRYPT and DECRYPT (10_state.md section 6). A change of such registers
before a command is the same change after it.
-/
namespace Sys2Proof.Machine

/-! ### A change of registers that a command may not read -/

/-- What a change makes of each register that it may touch. -/
structure Rewiring where
  aadaddr : Pair → Pair := id
  inaddr : Pair → Pair := id
  outaddr : Pair → Pair := id
  ctrv : Pair → Pair := id
  data : Quad → Quad := id
  b0 : Quad → Quad := id
  ctr0 : Quad → Quad := id
  key : KeyStage → KeyStage := id

/-- The state with the change made. -/
def Rewiring.apply (r : Rewiring) (s : State) : State :=
  { s with
    aadaddr := r.aadaddr s.aadaddr
    inaddr := r.inaddr s.inaddr
    outaddr := r.outaddr s.outaddr
    ctrv := r.ctrv s.ctrv
    data := r.data s.data
    b0 := r.b0 s.b0
    ctr0 := r.ctr0 s.ctr0
    key := r.key s.key }

/-- The change moves only buffers that are empty in `s`. -/
structure Rewiring.MovesEmptyOnly (r : Rewiring) (s : State) : Prop where
  aad : opA s = 0 ∨ r.aadaddr = id
  input : opM s = 0 ∨ r.inaddr = id
  output : opM s = 0 ∨ r.outaddr = id

/-- An outcome with its next state changed. -/
def mapNext (f : State → State) : Out → Out
  | .next t => .next (f t)
  | .fault r => .fault r
  | .refused r => .refused r

section

variable {r : Rewiring} {s : State}

/-! ### What the commands read does not change -/

/-- What does not depend on the address of an empty range does not see the change. -/
theorem address_congr {β : Type} {f : Pair → Pair} {n : Nat} (h : n = 0 ∨ f = id) (g : Nat → Nat → β)
    (hempty : ∀ a a', g a 0 = g a' 0) (p : Pair) : g (f p).u64 n = g p.u64 n := by
  rcases h with rfl | rfl
  · exact hempty _ _
  · rfl

theorem aadBytes_apply (h : r.MovesEmptyOnly s) : aadBytes (r.apply s) = aadBytes s :=
  address_congr h.aad (memRead s.mem) (fun _ _ => rfl) s.aadaddr

theorem inBytes_apply (h : r.MovesEmptyOnly s) : inBytes (r.apply s) = inBytes s :=
  address_congr h.input (memRead s.mem) (fun _ _ => rfl) s.inaddr

theorem outBytes_apply (h : r.MovesEmptyOnly s) : outBytes (r.apply s) = outBytes s :=
  address_congr h.output (memRead s.mem) (fun _ _ => rfl) s.outaddr

theorem checkAadRange_apply (h : r.MovesEmptyOnly s) : checkAadRange (r.apply s) = checkAadRange s :=
  address_congr h.aad (fun a n => ((rangeOK a n, .bufferFault) : Check)) (fun _ _ => rfl) s.aadaddr

theorem checkInRange_apply (h : r.MovesEmptyOnly s) : checkInRange (r.apply s) = checkInRange s :=
  address_congr h.input (fun a n => ((rangeOK a n, .bufferFault) : Check)) (fun _ _ => rfl) s.inaddr

theorem checkOutRange_apply (h : r.MovesEmptyOnly s) : checkOutRange (r.apply s) = checkOutRange s :=
  address_congr h.output (fun a n => ((rangeOK a n, .bufferFault) : Check)) (fun _ _ => rfl) s.outaddr

theorem messageChecks_apply (h : r.MovesEmptyOnly s) : messageChecks (r.apply s) = messageChecks s := by
  rw [messageChecks, checkAadRange_apply h, checkInRange_apply h, checkOutRange_apply h]
  rfl

theorem readsAdmitted_apply (h : r.MovesEmptyOnly s) : readsAdmitted (r.apply s) = readsAdmitted s :=
  congrArg₂ and (address_congr h.aad (rangeAdmitted s.platform .read) (fun _ _ => rfl) s.aadaddr)
    (address_congr h.input (rangeAdmitted s.platform .read) (fun _ _ => rfl) s.inaddr)

theorem writesAdmitted_apply (h : r.MovesEmptyOnly s) : writesAdmitted (r.apply s) = writesAdmitted s :=
  address_congr h.output (rangeAdmitted s.platform .write) (fun _ _ => rfl) s.outaddr

/-- An empty range overlaps nothing (20_memory.md R63). -/
theorem overlapDefined_apply (h : r.MovesEmptyOnly s) : overlapDefined (r.apply s) = overlapDefined s := by
  obtain ⟨haad, hin, hout⟩ := h
  by_cases hm : opM s = 0
  · have hempty : ∀ u : State, opM u = 0 → overlapDefined u = true := fun u hu => by
      simp [overlapDefined, hu]
    rw [hempty s hm, hempty (r.apply s) hm]
  · have hinAddr : inAddr (r.apply s) = inAddr s :=
      congrArg (fun f => (f s.inaddr).u64) (hin.resolve_left hm)
    have houtAddr : outAddr (r.apply s) = outAddr s :=
      congrArg (fun f => (f s.outaddr).u64) (hout.resolve_left hm)
    have hdisjoint := address_congr haad
      (fun a n => n == 0 || disjointRanges a n (outAddr s) (opM s)) (fun _ _ => rfl) s.aadaddr
    rw [overlapDefined, hinAddr, houtAddr]
    exact congrArg (fun b => opM s == 0
      || ((inAddr s == outAddr s || disjointRanges (inAddr s) (opM s) (outAddr s) (opM s)) && b)) hdisjoint

theorem encrypted_apply (h : r.MovesEmptyOnly s) : encrypted (r.apply s) = encrypted s := by
  rw [encrypted, aadBytes_apply h, inBytes_apply h]
  rfl

theorem recovered_apply (h : r.MovesEmptyOnly s) : recovered (r.apply s) = recovered s := by
  rw [recovered, inBytes_apply h]
  rfl

theorem tagsMatch_apply (h : r.MovesEmptyOnly s) : tagsMatch (r.apply s) = tagsMatch s := by
  rw [tagsMatch, expectedTag, aadBytes_apply h, recovered_apply h]
  rfl

theorem abortOutEncrypt_apply (h : r.MovesEmptyOnly s) : abortOutEncrypt (r.apply s) = abortOutEncrypt s := by
  rw [abortOutEncrypt, outBytes_apply h, encrypted_apply h]
  rfl

theorem abortOutDecrypt_apply (h : r.MovesEmptyOnly s) (matched : Bool) :
    abortOutDecrypt matched (r.apply s) = abortOutDecrypt matched s := by
  rw [abortOutDecrypt, outBytes_apply h, recovered_apply h]
  rfl

/-! ### What the commands write does not change -/

/-- A string of the message's length lands in the same place: an empty one nowhere. -/
theorem writeOutput_apply (h : r.MovesEmptyOnly s) {b : Bytes} (hb : b.length = opM s) :
    { r.apply s with mem := memWrite s.mem (outAddr (r.apply s)) b }
      = r.apply { s with mem := memWrite s.mem (outAddr s) b } := by
  have hmem := address_congr h.output (fun a n => memWrite s.mem a (b.take n)) (fun _ _ => rfl) s.outaddr
  rw [← hb, List.take_length] at hmem
  exact congrArg (fun m => r.apply { s with mem := m }) hmem

theorem abortEncrypt_apply (h : r.MovesEmptyOnly s) (c : ErrCode) :
    abortEncrypt c (r.apply s) = r.apply (abortEncrypt c s) := by
  rw [abortEncrypt, abortOutEncrypt_apply h, encrypted_apply h]
  exact congrArg (fun u => abort c { u with
    tag := if Config.freeTag s.freeSeed then tagRegister (encrypted s).2 (opT s) else s.tag })
    (writeOutput_apply h (abortOutEncrypt_length s))

theorem abortDecrypt_apply (h : r.MovesEmptyOnly s) (matched : Bool) (c : ErrCode) :
    abortDecrypt matched c (r.apply s) = r.apply (abortDecrypt matched c s) := by
  rw [abortDecrypt, abortOutDecrypt_apply h]
  exact congrArg (abort c) (writeOutput_apply h (abortOutDecrypt_length matched s))

/-! ### The shared operations commute with the change -/

theorem afterCalls_apply (n : Nat) : afterCalls n (r.apply s) = r.apply (afterCalls n s) := by
  rw [afterCalls_eq, afterCalls_oracle, afterCalls_eq n s, afterCalls_oracle]
  rfl

theorem movesEmptyOnly_afterCalls (h : r.MovesEmptyOnly s) (n : Nat) : r.MovesEmptyOnly (afterCalls n s) := by
  rw [afterCalls_eq]
  exact ⟨h.aad, h.input, h.output⟩

theorem validated_apply {checks checks' : List Check} {execution : State → Out} (hchecks : checks' = checks)
    (hexec : execution (r.apply s) = mapNext r.apply (execution s)) :
    validated checks' execution (r.apply s) = mapNext r.apply (validated checks execution s) := by
  rw [hchecks, validated, validated]
  cases firstError checks with
  | none => exact hexec
  | some c => rfl

theorem withCalls_apply {n : Nat} {onFailure onSuccess : State → Out} (h : r.MovesEmptyOnly s)
    (hfailure : ∀ u, r.MovesEmptyOnly u → onFailure (r.apply u) = mapNext r.apply (onFailure u))
    (hsuccess : ∀ u, r.MovesEmptyOnly u → onSuccess (r.apply u) = mapNext r.apply (onSuccess u)) :
    withCalls n onFailure onSuccess (r.apply s) = mapNext r.apply (withCalls n onFailure onSuccess s) := by
  have hafter := movesEmptyOnly_afterCalls h n
  have hfails : cipherFails n (r.apply s) = cipherFails n s := rfl
  rw [withCalls, withCalls, hfails, afterCalls_apply]
  split
  · exact hfailure _ hafter
  · exact hsuccess _ hafter

/-! ### RAWMAC, ENCRYPT and DECRYPT commute with the change -/

/-- RAWMAC writes DATA, so a change that leaves DATA alone commutes with it. -/
theorem execRawmac_apply (h : r.MovesEmptyOnly s) (hdata : r.data = id) :
    execRawmac (r.apply s) = mapNext r.apply (execRawmac s) := by
  have hwrite : ∀ (u : State) (d : Quad), { r.apply u with data := d } = r.apply { u with data := d } := by
    intro u d
    rw [Rewiring.apply, Rewiring.apply, hdata]
    rfl
  refine validated_apply ?_ ?_
  · rw [checkAadRange_apply h, checkInRange_apply h]
    rfl
  · rw [readsAdmitted_apply h]
    split
    · refine withCalls_apply h (fun u _ => ?_) fun u hu => ?_
      · rw [hwrite]
        rfl
      · rw [aadBytes_apply hu, inBytes_apply hu, hwrite]
        rfl
    · rw [hwrite]
      rfl

theorem execEncrypt_apply (h : r.MovesEmptyOnly s) :
    execEncrypt (r.apply s) = mapNext r.apply (execEncrypt s) := by
  refine validated_apply (messageChecks_apply h) ?_
  rw [overlapDefined_apply h, readsAdmitted_apply h]
  split
  · rfl
  split
  · exact congrArg _ (abortEncrypt_apply h _)
  refine withCalls_apply h (fun u hu => congrArg _ (abortEncrypt_apply hu _)) fun u hu => ?_
  rw [writesAdmitted_apply hu]
  split
  · exact congrArg _ (abortEncrypt_apply hu _)
  · rw [encrypted_apply hu]
    exact congrArg
      (fun v => Host.Outcome.next (complete { v with tag := tagRegister (encrypted u).2 (opT u) }))
      (writeOutput_apply hu (encrypted_length u))

theorem releasePlaintext_apply (h : r.MovesEmptyOnly s) :
    releasePlaintext (r.apply s) = mapNext r.apply (releasePlaintext s) := by
  refine withCalls_apply h (fun u hu => congrArg _ (abortDecrypt_apply hu _ _)) fun u hu => ?_
  rw [writesAdmitted_apply hu]
  split
  · exact congrArg _ (abortDecrypt_apply hu _ _)
  · rw [recovered_apply hu]
    exact congrArg (fun v => Host.Outcome.next (complete v))
      (writeOutput_apply hu (recovered_length u))

theorem zeroOutput_apply (h : r.MovesEmptyOnly s) :
    zeroOutput (r.apply s) = mapNext r.apply (zeroOutput s) := by
  rw [zeroOutput, zeroOutput, writesAdmitted_apply h]
  split
  · exact congrArg _ (abortDecrypt_apply h _ _)
  · exact congrArg (fun v => Host.Outcome.next (raise .authenticationFailed v))
      (writeOutput_apply h (zeros_length (opM s)))

theorem execDecrypt_apply (h : r.MovesEmptyOnly s) :
    execDecrypt (r.apply s) = mapNext r.apply (execDecrypt s) := by
  refine validated_apply (messageChecks_apply h) ?_
  rw [overlapDefined_apply h, readsAdmitted_apply h]
  split
  · rfl
  split
  · exact congrArg _ (abortDecrypt_apply h _ _)
  refine withCalls_apply h (fun u hu => congrArg _ (abortDecrypt_apply hu _ _)) fun u hu => ?_
  rw [tagsMatch_apply hu]
  split
  · exact releasePlaintext_apply hu
  · exact zeroOutput_apply hu

theorem exec_message_apply {i : Instr} (hi : i = .encrypt ∨ i = .decrypt) (h : r.MovesEmptyOnly s) :
    exec i (r.apply s) = mapNext r.apply (exec i s) := by
  rcases hi with rfl | rfl
  · exact execEncrypt_apply h
  · exact execDecrypt_apply h

theorem exec_buffers_apply {i : Instr} (hi : i = .rawmac ∨ i = .encrypt ∨ i = .decrypt)
    (h : r.MovesEmptyOnly s) (hdata : r.data = id) : exec i (r.apply s) = mapNext r.apply (exec i s) := by
  rcases hi with rfl | hi
  · exact execRawmac_apply h hdata
  · exact exec_message_apply hi h

end

/-- Settles O44: the two changes move a buffer of length 0. -/
theorem emptyBuffersIgnoreTheirAddress : Obligations.EmptyBuffersIgnoreTheirAddress := by
  intro s i p q hi
  refine ⟨fun ha => ?_, fun hm => ?_⟩
  · refine (exec_buffers_apply (r := { aadaddr := fun _ => p }) hi ⟨.inl ha, .inr rfl, .inr rfl⟩ rfl).trans ?_
    cases exec i s <;> rfl
  · refine (exec_buffers_apply (r := { inaddr := fun _ => p, outaddr := fun _ => q }) hi
      ⟨.inr rfl, .inl hm, .inl hm⟩ rfl).trans ?_
    cases exec i s <;> rfl

/-- Settles O56: the change moves no buffer. -/
theorem messageCommandsIgnoreTheBlockRegisters : Obligations.MessageCommandsIgnoreTheBlockRegisters := by
  intro s i d b c v k hi
  refine (exec_message_apply
    (r := { data := fun _ => d, b0 := fun _ => b, ctr0 := fun _ => c, ctrv := fun _ => v, key := fun _ => k })
    hi ⟨.inr rfl, .inr rfl, .inr rfl⟩).trans ?_
  cases exec i s <;> rfl

end Sys2Proof.Machine
end

section
/-!
PROOFS. What the key can reach (60_exceptions.md section 5): an action that starts no command that calls `E`
has the same outcome, but for the two keys, whatever the held and the staged key are.
-/
namespace Sys2Proof.Machine

/-- The state with another staged and another held key. -/
def rekeyed (k : KeyStage) (keyint : Bytes) (s : State) : State := { s with key := k, keyint := keyint }

theorem eq_rekeyed_of_sameButKey {s s' : State} (h : sameButKey s s') :
    s' = rekeyed s'.key s'.keyint s :=
  (congrArg (rekeyed s'.key s'.keyint) h).symm

section

variable (k : KeyStage) (keyint : Bytes) (s : State)

theorem validated_rekeyed (checks : List Check) {execution : State → Out}
    (h : sameOutcomeButKey (execution s) (execution (rekeyed k keyint s))) :
    sameOutcomeButKey (validated checks execution s) (validated checks execution (rekeyed k keyint s)) := by
  rw [validated, validated]
  cases firstError checks with
  | none => exact h
  | some c => exact rfl

theorem exec_setkey_rekeyed :
    sameOutcomeButKey (exec .setkey s) (exec .setkey (rekeyed k keyint s)) := by
  by_cases hlegal : opK s ∈ [16, 24, 32]
  · rw [exec_setkey_legal hlegal, exec_setkey_legal (s := rekeyed k keyint s) hlegal]
    exact rfl
  · rw [exec_setkey_illegal hlegal, exec_setkey_illegal (s := rekeyed k keyint s) hlegal]
    exact rfl

theorem execFormat_rekeyed : sameOutcomeButKey (execFormat s) (execFormat (rekeyed k keyint s)) := by
  refine validated_rekeyed k keyint s [checkKeySet s, checkNonceLen s, checkTagLen s, checkMsgLen s] ?_
  exact rfl

theorem execVerify_rekeyed : sameOutcomeButKey (execVerify s) (execVerify (rekeyed k keyint s)) := by
  refine validated_rekeyed k keyint s [checkKeySet s, checkTagLen s] ?_
  have hcompare : ctEqual (rekeyed k keyint s).data.bytes (rekeyed k keyint s).tag.bytes
      (opT (rekeyed k keyint s)) = ctEqual s.data.bytes s.tag.bytes (opT s) := rfl
  rw [hcompare]
  split
  · exact rfl
  · exact rfl

/-- SETKEY, FREE, FORMAT and VERIFY make no result from a key. -/
theorem exec_rekeyed {i : Instr} (h : ¬callsCipher i) :
    sameOutcomeButKey (exec i s) (exec i (rekeyed k keyint s)) := by
  cases i with
  | setkey => exact exec_setkey_rekeyed k keyint s
  | free => exact rfl
  | format => exact execFormat_rekeyed k keyint s
  | verify => exact execVerify_rekeyed k keyint s
  | rawmac | keystream | maskmac | encrypt | decrypt => exact absurd (by simp [callsCipher]) h

/-- A write to KEYi meets the staged key alone. -/
theorem writeOffset_rekeyed (off : BitVec 12) (v : Word) :
    sameButKey (writeOffset off v s) (writeOffset off v (rekeyed k keyint s)) := by
  cases hreg : regAt off with
  | none =>
    rw [writeOffset_reserved hreg, writeOffset_reserved hreg]
    rfl
  | some r =>
    rw [writeOffset_of_regAt hreg, writeOffset_of_regAt hreg]
    cases r <;> rfl

theorem hostWrite_rekeyed {bits : Nat} {off : BitVec 12} {v : Word} (h : keyless (.write bits off v)) :
    sameOutcomeButKey (hostWrite bits off v s).outcome
      (hostWrite bits off v (rekeyed k keyint s)).outcome := by
  cases haccess : accessRefusal bits off with
  | some r =>
    rw [hostWrite_refused haccess, hostWrite_refused haccess]
    exact rfl
  | none =>
    by_cases hcmd : regAt off = some .cmd
    · rw [hostWrite_to_cmd haccess hcmd, hostWrite_to_cmd haccess hcmd]
      cases hdecode : decode v with
      | command i =>
        rw [commandWrite_of_command hdecode, commandWrite_of_command hdecode]
        exact exec_rekeyed k keyint s (h hcmd i hdecode)
      | rejected why =>
        rw [commandWrite_of_rejected hdecode, commandWrite_of_rejected hdecode]
        exact rfl
    · rw [hostWrite_beside_cmd haccess hcmd, hostWrite_beside_cmd haccess hcmd]
      exact writeOffset_rekeyed k keyint s off v

theorem hostRead_rekeyed (bits : Nat) (off : BitVec 12) :
    sameOutcomeButKey (hostRead bits off s) (hostRead bits off (rekeyed k keyint s)) := by
  cases haccess : accessRefusal bits off with
  | some r =>
    rw [hostRead_refused haccess, hostRead_refused haccess]
    exact rfl
  | none =>
    rw [hostRead_answers haccess, hostRead_answers haccess, rekeyed, readOffset_rekeyed]
    exact rfl

theorem hostStore_rekeyed (addr : BitVec 64) (bytes : Bytes) :
    sameOutcomeButKey (hostStore addr bytes s) (hostStore addr bytes (rekeyed k keyint s)) := by
  by_cases hfits : addr.toNat + bytes.length ≤ 2 ^ 64
  · rw [hostStore_inside hfits, hostStore_inside hfits]
    exact rfl
  · rw [hostStore_pastTop hfits, hostStore_pastTop hfits]
    exact rfl

/-- A reset during a command that does not write the buffer memory is reset alone (log 14). -/
theorem resetDuringCommand_keyless {w : Word} (h : keyless (.resetDuring w)) (u : State) :
    resetDuringCommand w u = .next (platformReset u) := by
  rw [resetDuringCommand]
  cases hdecode : decode w with
  | rejected why => rfl
  | command i =>
    have hwrites : writesBuffer i = false := by
      have hcipher := h i hdecode
      cases i with
      | encrypt | decrypt => exact absurd (by simp [callsCipher]) hcipher
      | _ => rfl
    exact if_neg (by simp [hwrites])

theorem perform_rekeyed {act : HostAction} (h : keyless act) :
    sameOutcomeButKey (perform act s).outcome (perform act (rekeyed k keyint s)).outcome := by
  cases act with
  | write bits off v => exact hostWrite_rekeyed k keyint s h
  | read bits off => exact hostRead_rekeyed k keyint s bits off
  | store addr bytes => exact hostStore_rekeyed k keyint s addr bytes
  | reset => exact rfl
  | resetDuring w =>
    have hreset := resetDuringCommand_keyless h
    rw [perform, perform, Fetched.outcome, Fetched.outcome, hreset, hreset]
    exact rfl

end

/-- Settles O55: a step is one action, and each keyless action has the same outcome but for the keys. -/
theorem keylessActionsRevealNothingOfTheKey : Obligations.KeylessActionsRevealNothingOfTheKey := by
  intro s s' hsame hkeyless
  rw [eq_rekeyed_of_sameButKey hsame]
  generalize s'.key = k, s'.keyint = keyint
  cases hbus : s.bus with
  | nil =>
    rw [step_of_no_act hbus, step_of_no_act (s := rekeyed k keyint s) hbus]
    exact rfl
  | cons act rest =>
    have hact : keyless act := hkeyless act (by simp [hbus])
    rw [step_of_act hbus, step_of_act (s := rekeyed k keyint s) hbus]
    exact perform_rekeyed k keyint { s with bus := rest, reply := none } hact

end Sys2Proof.Machine
end
